-- ==== Sys2Proof/Word.lean ====
section
/-! DEFINITION. The value types of 00_scope.md section 5: bytes, glyph masks, segments. -/

namespace Sys2Proof

/-- `Byte` of 00_scope.md section 5: 8 bits; also a `Char` (an ASCII code, 92_eei_decisions.md D24). -/
abbrev Byte := BitVec 8

/-- `Mask14` of 00_scope.md section 5: bit i is segment i (40_glyph_rom.md R71). -/
abbrev Mask14 := BitVec 14

/-- `Seg` of 00_scope.md section 5: the fourteen segments A = 0 .. N = 13. -/
abbrev Seg := Fin 14

end Sys2Proof
end

