-- ==== Sys2Proof/Syntax.lean ====
section
/-! DEFINITION. The eleven commands of 30_encoding.md R50, one constructor per row of the opcode table. -/

namespace Sys2Proof

/-- A command with its operands as R50 gives them. A character, a digit index and a shift amount are
bytes; the DEFGLYPH mask is its 16 operand bits, before the rule drops the upper two. -/
inductive Instr where
  /-- INIT (44_system.md R130) -/
  | init
  /-- CLEAR (42_buffer_update.md R102) -/
  | clear
  /-- FLUSH (42_buffer_update.md R109) -/
  | flush
  /-- WRCHAR c, d (42_buffer_update.md R101) -/
  | wrchar (c : Byte) (d : Byte)
  /-- WRBYTE c (42_buffer_update.md R105) -/
  | wrbyte (c : Byte)
  /-- WRSTREAM cs, a list of any finite length (42_buffer_update.md R104, 30_encoding.md R56) -/
  | wrstream (cs : List Byte)
  /-- SHL n (43_shift.md R121) -/
  | shl (n : Byte)
  /-- SHR n (43_shift.md R122) -/
  | shr (n : Byte)
  /-- DEFGLYPH c, m (40_glyph_rom.md R75) -/
  | defglyph (c : Byte) (m : BitVec 16)
  /-- GLYPHQ c (40_glyph_rom.md R74) -/
  | glyphq (c : Byte)
  /-- SEGQ s, d (41_segment_address.md R92) -/
  | segq (s : Seg) (d : Byte)
deriving DecidableEq, Repr

end Sys2Proof
end

