-- ==== Sys2Proof/WellFormed.lean ====
section
/-! DEFINITION. Which commands have an encoding. -/

namespace Sys2Proof

/-- A command that the encoding can carry: a stream has at most 255 characters (30_encoding.md R51,
R56). Every other operand fills its field exactly, or has a type that admits legal values only (a
segment is 0..13). A longer stream still has a meaning (R56). -/
def Instr.wellFormed : Instr → Bool
  | .wrstream cs => decide (cs.length ≤ 255)
  | .init | .clear | .flush | .wrchar _ _ | .wrbyte _ | .shl _ | .shr _
  | .defglyph _ _ | .glyphq _ | .segq _ _ => true

end Sys2Proof
end

