-- ==== Sys2Proof/Decode.lean ====
section
/-! DEFINITION. Bytes to commands and back (30_encoding.md R51 to R56). -/

namespace Sys2Proof

/-- Why a byte sequence is `invalid` (30_encoding.md R55). -/
inductive Invalid where
  /-- byte 0 is not in the table of R54 -/
  | opcode
  /-- a SEGQ whose segment byte is 14 or more -/
  | operand
  /-- the sequence ends before the length its format requires -/
  | truncated
deriving DecidableEq, Repr

/-- What decoding gives: one command and the remaining bytes, or `invalid` (R55). -/
inductive Decoded where
  | command (i : Instr) (rest : List Byte)
  | invalid (r : Invalid)
deriving DecidableEq, Repr

/-- The segment a byte names: 0..13 (R52). -/
def segOfByte (a : Byte) : Option Seg :=
  if h : a.toNat < 14 then some ⟨a.toNat, h⟩ else none

/-- `m = mhi * 256 + mlo`, little-endian (R53). -/
def maskOfBytes (mlo mhi : Byte) : BitVec 16 := mhi ++ mlo

/-- Format F1: one operand byte (R51). -/
def decodeF1 (k : Byte → Instr) : List Byte → Decoded
  | a :: rest => .command (k a) rest
  | _ => .invalid .truncated

/-- Format F2: two operand bytes (R51); `k` refuses an illegal operand, after the length check (R147). -/
def decodeF2 (k : Byte → Byte → Option Instr) : List Byte → Decoded
  | a :: b :: rest =>
    match k a b with
    | some i => .command i rest
    | none => .invalid .operand
  | _ => .invalid .truncated

/-- Format F3: a character and the two bytes of a mask (R51). -/
def decodeF3 (k : Byte → BitVec 16 → Instr) : List Byte → Decoded
  | a :: mlo :: mhi :: rest => .command (k a (maskOfBytes mlo mhi)) rest
  | _ => .invalid .truncated

/-- Format FV: a count and that many bytes (R51, R56). -/
def decodeFV (k : List Byte → Instr) : List Byte → Decoded
  | n :: rest =>
    if n.toNat ≤ rest.length then .command (k (rest.take n.toNat)) (rest.drop n.toNat)
    else .invalid .truncated
  | _ => .invalid .truncated

/-- The decoder: byte 0 alone fixes the format (R51, R54). Total; a reserved opcode is refused by
name, and so is the empty sequence, which ends before any format's length. -/
def decode : List Byte → Decoded
  | [] => .invalid .truncated
  | op :: rest =>
    match op.toNat with
    | 0x01 => .command .init rest
    | 0x02 => .command .clear rest
    | 0x03 => .command .flush rest
    | 0x10 => decodeF2 (fun c d => some (.wrchar c d)) rest
    | 0x11 => decodeF1 .wrbyte rest
    | 0x12 => decodeFV .wrstream rest
    | 0x20 => decodeF1 .shl rest
    | 0x21 => decodeF1 .shr rest
    | 0x30 => decodeF3 .defglyph rest
    | 0x40 => decodeF1 .glyphq rest
    | 0x41 => decodeF2 (fun a d => (segOfByte a).map (fun s => .segq s d)) rest
    | _ => .invalid .opcode

/-- The bytes of a well-formed command (R51 to R54). -/
def encode : Instr → List Byte
  | .init => [0x01]
  | .clear => [0x02]
  | .flush => [0x03]
  | .wrchar c d => [0x10, c, d]
  | .wrbyte c => [0x11, c]
  | .wrstream cs => 0x12 :: BitVec.ofNat 8 cs.length :: cs
  | .shl n => [0x20, n]
  | .shr n => [0x21, n]
  | .defglyph c m => [0x30, c, m.extractLsb' 0 8, m.extractLsb' 8 8]
  | .glyphq c => [0x40, c]
  | .segq s d => [0x41, BitVec.ofNat 8 s.val, d]

/-- The length of a command from byte 0 alone, or for opcode 0x12 from byte 1 (R56); none where the
opcode is reserved or the count byte is missing. -/
def commandLength : List Byte → Option Nat
  | [] => none
  | op :: rest =>
    match op.toNat with
    | 0x01 | 0x02 | 0x03 => some 1
    | 0x11 | 0x20 | 0x21 | 0x40 => some 2
    | 0x10 | 0x41 => some 3
    | 0x30 => some 4
    | 0x12 => rest.head?.map (fun n => 2 + n.toNat)
    | _ => none

/-- The longest command: 2 + 255 bytes (R51). -/
def longestCommand : Nat := 257

/-- The bytes of a table word: byte j is bits 8j+7..8j, every bit at or above `nbits` zero, up to the
longest command. -/
def tableBytes (nbits w : Nat) : List Byte :=
  (List.range longestCommand).map (fun j => BitVec.ofNat 8 ((w % 2 ^ nbits) >>> (8 * j)))

/-- Exactly the bytes of the command that a table word begins with; all the bytes where the opcode is
reserved. -/
def tableCommandBytes (nbits w : Nat) : List Byte :=
  let bs := tableBytes nbits w
  match commandLength bs with
  | some n => bs.take n
  | none => bs

/-- The command the decoder reads from a word of spec/opcode_table.json. -/
def decodeTableWord (nbits w : Nat) : Option Instr :=
  match decode (tableBytes nbits w) with
  | .command i _ => some i
  | .invalid _ => none

end Sys2Proof
end

