-- ==== Sys2Proof/Config.lean ====
section
/-! DEFINITION. The configuration record of 00_scope.md R3, and the values the spec leaves open. -/

namespace Sys2Proof

/-- The half of a digit a segment belongs to (00_scope.md glossary): A..G lower, H..N upper in the
table of 41_segment_address.md R86. -/
inductive Half where
  | lower
  | upper
deriving DecidableEq, Repr

/-- One entry `(common, half)` of `COMTAB` (R86): common 0..6, half 0 or 4. -/
structure SegEntry where
  common : Fin 7
  half : Half
deriving DecidableEq, Repr

/-- The record of R3, fixed before reset and never changed by a command. `N` is the length of the
chain. -/
structure Config where
  /-- `CHAIN[0..N-1]`, left to right; opaque 8-bit values (92_eei_decisions.md D22) -/
  chain : List Byte
  /-- `ROM[0..95]` -/
  rom : List Mask14
  /-- `COMTAB[0..13]` -/
  comtab : List SegEntry
  /-- `DEC_OFF`, 0..15 -/
  decOff : Fin 16
  /-- `COL_OFF`, 0..15 -/
  colOff : Fin 16
deriving DecidableEq, Repr

/-- `N`, the chain length (R3). -/
abbrev Config.n (c : Config) : Nat := c.chain.length

/-- `NDIG = 4 * N` (R3). -/
abbrev Config.ndig (c : Config) : Nat := 4 * c.n

/-- `IMGSZ = 16 * N` (R3). -/
abbrev Config.imgsz (c : Config) : Nat := 16 * c.n

/-- The ranges of R3 and the four ROM entries the source fixes (40_glyph_rom.md R73). Nothing is asked
of the other 92 entries. -/
abbrev Config.Legal (c : Config) : Prop :=
  (1 ≤ c.n ∧ c.n ≤ 4) ∧
  (c.rom.length = 96 ∧ c.rom[0]? = some 0x0000 ∧ c.rom[14]? = some 0x0000 ∧
    c.rom[26]? = some 0x0000 ∧ c.rom[95]? = some 0x3FFF) ∧
  c.comtab.length = 14 ∧
  c.colOff ≠ c.decOff

/-- The premise of 41_segment_address.md R90 under which the decoder is injective: the segments of
each half have distinct commons. -/
abbrev Config.DistinctSegments (c : Config) : Prop := c.comtab.Nodup

/-- Free value: chain length, of which R3 admits 1..4 (log entry 3). -/
opaque Config.freeChainLength : Nat

/-- Free value: `CHAIN[k]` (R3 OPEN, log entry 3). -/
opaque Config.freeChipAddress : Nat → BitVec 8

/-- Free value: the 92 ROM entries the source does not give (R73 OPEN, log entry 3). -/
opaque Config.freeRomEntry : Nat → BitVec 14

/-- Free value: `DEC_OFF` (R3 OPEN, log entry 3). -/
opaque Config.freeDecimalOffset : Nat

/-- Free value: `COL_OFF` (R3 OPEN, log entry 3). -/
opaque Config.freeColonOffset : Nat

/-- Free value: byte a of `IMG` until something writes it (10_state.md R22, log entry 5). -/
opaque Config.imgAtReset : Nat → BitVec 8

/-- Free value: entry i of `SHADOW` until something writes it (10_state.md R22, log entry 5). -/
opaque Config.shadowAtReset : Nat → BitVec 8

/-- Free value: the environment's answer number j, where the state lists none (20_memory.md R36,
44_system.md R130, log entry 2). -/
opaque Config.freeAnswer : Nat → Bool

end Sys2Proof
end

