-- ==== Sys2Proof/Machine/Parameters.lean ====
section
/-! DEFINITION. The configuration of this hardware: the table of 41_segment_address.md R86, the fixed
ROM entries of 40_glyph_rom.md R73, and free values for everything 00_scope.md R3 leaves OPEN. -/

namespace Sys2Proof.Machine

/-- `COMTAB` of this hardware (R86; H and I as 90_conflicts.md C2 resolves them, log entry 4). -/
def comtabOfR86 : List SegEntry :=
  [ ⟨0, .lower⟩, ⟨1, .lower⟩, ⟨2, .lower⟩, ⟨3, .lower⟩, ⟨4, .lower⟩, ⟨5, .lower⟩, ⟨6, .lower⟩,
    ⟨0, .upper⟩, ⟨1, .upper⟩, ⟨2, .upper⟩, ⟨3, .upper⟩, ⟨4, .upper⟩, ⟨5, .upper⟩, ⟨6, .upper⟩ ]

/-- A 96-entry ROM (R73): blank at 0, 14 and 26, all segments at 95, `entry i` elsewhere. -/
def romWith (entry : Nat → Mask14) : List Mask14 :=
  (List.range 96).map (fun i =>
    if i = 0 ∨ i = 14 ∨ i = 26 then 0x0000#14 else if i = 95 then 0x3FFF#14 else entry i)

/-- The colon offset a free value stands for: any of the sixteen but `DEC_OFF` (R3). -/
def otherOffset (dec : Fin 16) (x : Nat) : Fin 16 :=
  if Fin.ofNat 16 x = dec then dec + 1 else Fin.ofNat 16 x

/-- The configuration record of this hardware (R3). Every legal record with the COMTAB of R86 is a
possible value of it. -/
def thisConfig : Config where
  chain := (List.range (Config.freeChainLength % 4 + 1)).map Config.freeChipAddress
  rom := romWith Config.freeRomEntry
  comtab := comtabOfR86
  decOff := Fin.ofNat 16 Config.freeDecimalOffset
  colOff := otherOffset (Fin.ofNat 16 Config.freeDecimalOffset) Config.freeColonOffset

end Sys2Proof.Machine
end

