-- ==== Sys2Proof/Machine/State.lean ====
section
/-! DEFINITION. The state of the block (10_state.md), how a step can stop, and the state after reset. -/

namespace Sys2Proof.Machine

/-- `PHASE` (10_state.md R14): the phases observable between commands. -/
inductive Phase where
  | uninit
  | ready
  | failed
deriving DecidableEq, Repr

/-- An element of `OVR` (10_state.md R16): a table index and the mask that shadows its ROM entry. -/
structure Override where
  index : Nat
  mask : Mask14
deriving DecidableEq, Repr

/-- An event of `TRACE` (10_state.md R19). -/
inductive Event where
  /-- `BusWrite(k, CHAIN[k], data, ack)` -/
  | busWrite (k : Nat) (addr : Byte) (data : List Byte) (ack : Bool)
  /-- `InitAttempt(ok)` -/
  | initAttempt (ok : Bool)
deriving DecidableEq, Repr

/-- A byte store as a list of written cells, addresses strictly rising; an address that is not listed
has not been written since reset and holds no known value (10_state.md R22; log entry 5). -/
abbrev Memory := List Host.Cell

/-- Operations the source names and the spec gives no command and no rule (44_system.md R131). -/
inductive BoundaryOp where
  | setBrightness
  | setBlinkRate
  | powerOn
  | powerOff
  | displayOn
  | enableSystemClock
  | setDecimal
  | setColon
  | transactionBegin
  | transactionWrite
  | transactionEnd
  | requestRead
deriving DecidableEq, Repr

/-- Everything the block holds (10_state.md R10), its configuration, and the model's view of its two
neighbours: the host's pending bytes and the environment's coming answers. -/
structure State where
  /-- the configuration record (00_scope.md R3); no command changes it (log entry 3) -/
  cfg : Config
  /-- `IMG`, the RAM Image (R18) -/
  img : Memory
  /-- `CURSOR` (R11) -/
  cursor : Nat
  /-- `SHADOW`, the Display Content Shadow (R17) -/
  shadow : Memory
  /-- `OVR`, the Glyph Override store, first inserted first (R16) -/
  ovr : List Override
  /-- `OK` (R13) -/
  ok : Bool
  /-- `RES0` (R15) -/
  res0 : BitVec 16
  /-- `RES1` (R15) -/
  res1 : BitVec 8
  /-- `PHASE` (R14) -/
  phase : Phase
  /-- `TRACE`, oldest event first (R19) -/
  trace : List Event
  /-- command bytes the host has presented and the block has not taken (the model's own, log entry 1) -/
  input : List Byte
  /-- the environment's coming answers, first first (the model's own, log entry 2) -/
  answers : List Bool
  /-- how many answers have been drawn (the model's own, log entry 2) -/
  draws : Nat
deriving DecidableEq, Repr

/-- Why the machine stops with a fault. -/
inductive Fault where
  /-- `DigitRange` (60_exceptions.md R142): WRCHAR with an ordinary character or SEGQ, with a digit
  index at or above NDIG, before any write. Safe: the spec gives the state after it no meaning. -/
  | digitRange
  /-- A status bit asked for while `CURSOR` is outside the chain, so that the byte does not exist
  (20_memory.md R32). Raised by `put` in states no run reaches (10_state.md R23). Safe (log entry 7). -/
  | imageRange
deriving DecidableEq, Repr

/-- Why a command is refused (60_exceptions.md R143). Each leaves the block unchanged. -/
inductive Refusal where
  /-- a row of the opcode table without a meaning yet: raised by `exec` alone. Safe. -/
  | notModelled (mnemonic : String)
  /-- `NotReady`: any command but INIT while PHASE is not READY. Safe, the spec's own refusal. -/
  | notReady
  /-- `AlreadyInitialised`: INIT while PHASE is not UNINIT. Safe, the spec's own refusal. -/
  | alreadyInitialised
  /-- `InvalidOpcode`: raised by `step` when byte 0 is reserved. Safe, the spec's own refusal. -/
  | invalidOpcode
  /-- `InvalidOperand`: raised by `step` for SEGQ with segment byte 14..255. Safe, the spec's own. -/
  | invalidOperand
  /-- `Truncated`: raised by `step` when the bytes end inside a command. Safe, the spec's own. -/
  | truncated
  /-- `Unmodelled`: raised by `boundaryOperation` for an operation of R131. Safe, the spec's own. -/
  | unmodelled (op : BoundaryOp)
  /-- Two commands at once (60_exceptions.md R151): raised by `presentTogether`. Safe, the spec's own. -/
  | concurrentCommands
deriving DecidableEq, Repr

/-- The block after reset (10_state.md R22, 70_reset_and_hazards.md R160): no byte of IMG or SHADOW
holds a known value; nothing has been presented and no answer is settled. -/
def State.reset : State where
  cfg := thisConfig
  img := []
  cursor := 0
  shadow := []
  ovr := []
  ok := false
  res0 := 0
  res1 := 0
  phase := .uninit
  trace := []
  input := []
  answers := []
  draws := 0

end Sys2Proof.Machine
end

