-- ==== Sys2Proof/Machine/Ops.lean ====
section
/-! DEFINITION. The named operations over the block's memories and registers, the transport, and the
taking of a presented command. The block takes no exception (60_exceptions.md R140, R148), so none of
these enters or leaves a handler. -/

namespace Sys2Proof.Machine

/-- What a step answers. -/
abbrev Outcome := Host.Outcome State Fault Refusal

/-! Byte stores. -/

/-- The byte an address was last written with; none where nothing has written it. -/
def Memory.lookup (a : Nat) : Memory → Option Byte
  | [] => none
  | (b, v) :: m => if b = a then some v else Memory.lookup a m

/-- Write one byte, keeping the addresses strictly rising. -/
def Memory.write (a : Nat) (v : Byte) : Memory → Memory
  | [] => [(a, v)]
  | (b, w) :: m =>
    if a < b then (a, v) :: (b, w) :: m
    else if a = b then (a, v) :: m
    else (b, w) :: Memory.write a v m

/-- The canonical form: addresses strictly rising (so none is listed twice). -/
def Memory.wf : Memory → Bool
  | [] => true
  | c :: m => m.all (fun d => decide (c.1 < d.1)) && Memory.wf m

/-- Every listed address lies below the size of the space (20_memory.md R32). -/
def Memory.within (size : Nat) (m : Memory) : Bool := m.all (fun c => decide (c.1 < size))

/-- What reading byte a of an image gives: the written byte, or the free value of a byte nothing has
written (10_state.md R22). -/
def readImage (m : Memory) (a : Nat) : Byte := (m.lookup a).getD (Config.imgAtReset a)

/-- `MemOr(a, v)` on an image: `MemWrite(a, 1, MemRead(a, 1) | v)` (00_scope.md section 5). -/
def orImage (a : Nat) (v : Byte) (m : Memory) : Memory := m.write a (readImage m a ||| v)

/-- `for a in 0..size-1: MemWrite(a, 1, 0x00)` (42_buffer_update.md R102, R108). -/
def zeroBelow (size : Nat) (m : Memory) : Memory :=
  (List.range size).foldl (fun m a => m.write a 0x00) m

/-! Registers: one home each, one update each. -/

def setImg (m : Memory) (s : State) : State := { s with img := m }
def setCursor (c : Nat) (s : State) : State := { s with cursor := c }
def setShadow (m : Memory) (s : State) : State := { s with shadow := m }
def setOvr (o : List Override) (s : State) : State := { s with ovr := o }
def setOk (b : Bool) (s : State) : State := { s with ok := b }
def setRes0 (r : BitVec 16) (s : State) : State := { s with res0 := r }
def setRes1 (r : BitVec 8) (s : State) : State := { s with res1 := r }
def setPhase (p : Phase) (s : State) : State := { s with phase := p }
def setInput (bs : List Byte) (s : State) : State := { s with input := bs }

/-- Append an event to `TRACE` (10_state.md R19). -/
def logEvent (e : Event) (s : State) : State := { s with trace := s.trace ++ [e] }

/-! The storage spaces of 10_state.md R18. -/

/-- `MemRead(a, 1)` (20_memory.md R35). -/
def memRead (s : State) (a : Nat) : Byte := readImage s.img a

/-- `MemWrite(a, 1, v)` (20_memory.md R35). -/
def memWrite (a : Nat) (v : Byte) (s : State) : State := setImg (s.img.write a v) s

/-- `MemOr(a, v)` (20_memory.md R35). -/
def memOr (a : Nat) (v : Byte) (s : State) : State := setImg (orImage a v s.img) s

/-- The zeroing of the whole image (42_buffer_update.md R102, R108). -/
def zeroImage (s : State) : State := setImg (zeroBelow s.cfg.imgsz s.img) s

/-- `SHADOW[i]` read; the free value where no stream has recorded a character (10_state.md R22). -/
def shadowRead (s : State) (i : Nat) : Byte := (s.shadow.lookup i).getD (Config.shadowAtReset i)

/-- `SHADOW[i] <- c`. -/
def shadowWrite (i : Nat) (c : Byte) (s : State) : State := setShadow (s.shadow.write i c) s

/-- `CURSOR <- (CURSOR + 1) mod NDIG` (10_state.md R11). -/
def advanceCursor (s : State) : State := setCursor ((s.cursor + 1) % s.cfg.ndig) s

/-! The transport (20_memory.md R36, 60_exceptions.md R152). -/

/-- The environment's next answer: the one the state lists first, else a free value (log entry 2). -/
def nextAnswer (s : State) : Bool := s.answers.headD (Config.freeAnswer s.draws)

/-- The state once that answer is drawn. -/
def answerDrawn (s : State) : State := { s with answers := s.answers.tail, draws := s.draws + 1 }

/-- `CHAIN[k]` (00_scope.md R3). -/
def chipAddress (s : State) (k : Nat) : Byte := s.cfg.chain.getD k 0

/-- `IMG[16*k .. 16*k+15]`, in ascending offset order (20_memory.md R30). -/
def chipBlock (s : State) (k : Nat) : List Byte :=
  (List.range 16).map (fun j => memRead s (16 * k + j))

/-- `BusWrite(k, data)` (R36): the event is recorded with the environment's answer, `nextAnswer s`. -/
def busWrite (k : Nat) (data : List Byte) (s : State) : State :=
  logEvent (.busWrite k (chipAddress s k) data (nextAnswer s)) (answerDrawn s)

/-- The loop of `flush()` (42_buffer_update.md R106) over the chips still to be written, with the
result bit so far: a failure does not stop it. -/
def flushChips : List Nat → Bool → State → Bool × State
  | [], r, s => (r, s)
  | k :: ks, r, s => flushChips ks (r && nextAnswer s) (busWrite k (chipBlock s k) s)

/-- `flush()` (R106): every chip in ascending order; the AND of the answers, and the state after. -/
def flush (s : State) : Bool × State := flushChips (List.range s.cfg.n) true s

/-! The chips' display memories (10_state.md R20). -/

/-- What one event makes of chip k's memory: the payload after an acknowledged write to k, unknown
after a failed one, as before otherwise. -/
def chipAfter (k : Nat) (before : Option (List Byte)) : Event → Option (List Byte)
  | .busWrite j _ data ack => if j = k then (if ack then some data else none) else before
  | .initAttempt _ => before

/-- Chip k's 16-byte display memory as R20 lets one know it from `TRACE`; none is unknown. -/
def chipMemory (k : Nat) (trace : List Event) : Option (List Byte) :=
  trace.foldl (chipAfter k) none

/-! Commands as the host presents them. -/

/-- The refusal of R143 for an invalid byte sequence. -/
def refusalOf : Invalid → Refusal
  | .opcode => .invalidOpcode
  | .operand => .invalidOperand
  | .truncated => .truncated

/-- The next presented command; none where the host has presented nothing (log entry 1). -/
def fetch (s : State) : Option Decoded :=
  if s.input.isEmpty then none else some (decode s.input)

/-- Present the command of a table word before whatever the host has already presented. -/
def presentTableWord (nbits w : Nat) (s : State) : State :=
  setInput (tableCommandBytes nbits w ++ s.input) s

end Sys2Proof.Machine
end

