-- ==== Sys2Proof/Machine/Operands.lean ====
section
/-! DEFINITION. What the operands of a command stand for: characters and their glyphs, segments and
their place in the image, digits, and the characters a shift renders. -/

namespace Sys2Proof.Machine

/-! Characters. -/

/-- ' ' (00_scope.md section 5). -/
def spaceChar : Byte := 0x20

/-- '.' -/
def dotChar : Byte := 0x2E

/-- ':' -/
def colonChar : Byte := 0x3A

/-- A special character is '.' or ':' (00_scope.md glossary). -/
def isSpecial (c : Byte) : Bool := c == dotChar || c == colonChar

/-- `idx(c)`, the table index of a character (40_glyph_rom.md R70). -/
def idx (c : Byte) : Nat :=
  if 0x20 ≤ c.toNat ∧ c.toNat ≤ 0x7E then c.toNat - 0x20 else 95

/-- The characters DEFGLYPH accepts, '!'..'~' (R75). -/
def isDefinable (c : Byte) : Bool := decide (0x21 ≤ c.toNat ∧ c.toNat ≤ 0x7E)

/-- The mask the override store gives an index: the first inserted match (R72). -/
def overrideOf (ovr : List Override) (i : Nat) : Option Mask14 :=
  (ovr.find? (fun e => e.index == i)).map (·.mask)

/-- `ROM[i]` (R73); i is 0..95. -/
def romEntry (s : State) (i : Nat) : Mask14 := s.cfg.rom.getD i 0

/-- `glyph(c)`: the override store first, else the ROM (R72). -/
def glyph (s : State) (c : Byte) : Mask14 :=
  (overrideOf s.ovr (idx c)).getD (romEntry s (idx c))

/-- `m[13:0]` of a 16-bit mask operand (R75). -/
def keptMask (m : BitVec 16) : Mask14 := m.setWidth 14

/-! Segments. -/

/-- The number a half adds to the row: 0 or 4 (41_segment_address.md R86). -/
def halfOffset : Half → Nat
  | .lower => 0
  | .upper => 4

/-- `COMTAB[s]` (R86). -/
def segEntry (cfg : Config) (s : Seg) : SegEntry := cfg.comtab.getD s.val ⟨0, .lower⟩

/-- `row(s, d) = (d mod 4) + half(s)` (R87). -/
def segRow (cfg : Config) (s : Seg) (d : Nat) : Nat := d % 4 + halfOffset (segEntry cfg s).half

/-- `block(d) = (d div 4) * 16` (R88). -/
def chipBase (d : Nat) : Nat := d / 4 * 16

/-- `segaddr(s, d)`: the byte offset and the one-bit mask, as R89 transcribes the source's steps, with
its two branches on a row above 7. R91 gives it no meaning for d at or above NDIG: that this total
function follows the same formula there is the model's choice, which no command reaches (DESIGN CHOICE,
log entry 16). -/
def segaddr (cfg : Config) (s : Seg) (d : Nat) : Nat × Byte :=
  let row := segRow cfg s d
  let adr := (segEntry cfg s).common.val * 2 + chipBase d
  if row > 7 then (adr + 1, 1#8 <<< (row - 8)) else (adr, 1#8 <<< row)

/-- `digitmask(d)`: bit s is 1 exactly when segment s of digit d is set in the image
(42_buffer_update.md R110, for d < NDIG; beyond it as `segaddr`, log entry 16). -/
def digitmask (s : State) (d : Nat) : Mask14 :=
  BitVec.ofFnLE (fun g : Seg =>
    decide (memRead s (segaddr s.cfg g d).1 &&& (segaddr s.cfg g d).2 ≠ 0))

/-! Digits. -/

/-- A digit index inside the chain (R85, R91). -/
def digitInChain (s : State) (d : Nat) : Bool := decide (d < s.cfg.ndig)

/-! Shifts (43_shift.md). -/

/-- The array SHL renders: a snapshot of the shadow moved toward position 0, spaces at the right (R121). -/
def shiftedLeft (n : Nat) (s : State) : List Byte :=
  (List.range s.cfg.ndig).map (fun i =>
    if i + n < s.cfg.ndig then shadowRead s (i + n) else spaceChar)

/-- The array SHR renders: a snapshot of the shadow moved toward position NDIG-1, spaces at the left
(R122). -/
def shiftedRight (n : Nat) (s : State) : List Byte :=
  (List.range s.cfg.ndig).map (fun i => if n ≤ i then shadowRead s (i - n) else spaceChar)

end Sys2Proof.Machine
end

