-- ==== Sys2Proof/Machine/Flags.lean ====
section
/-! DEFINITION. `OK`, the block's one flag (10_state.md R13, 60_exceptions.md R144), and the phase that
gates every command. -/

namespace Sys2Proof.Machine

/-- A command that ends in a flush completes with the AND of the answers in `OK` (R13). -/
def completeWithFlush (s : State) : State := setOk (flush s).1 (flush s).2

/-- Every command but INIT is refused unless PHASE is READY (10_state.md R14, 60_exceptions.md R143). -/
def whenReady (s : State) (k : Outcome) : Outcome :=
  match s.phase with
  | .ready => k
  | .uninit | .failed => .refused .notReady

/-- INIT is refused unless PHASE is UNINIT (44_system.md R130). -/
def whenUninit (s : State) (k : Outcome) : Outcome :=
  match s.phase with
  | .uninit => k
  | .ready | .failed => .refused .alreadyInitialised

end Sys2Proof.Machine
end

