-- ==== Sys2Proof/Machine/Procedures.lean ====
section
/-! DEFINITION. The helper procedures of 42_buffer_update.md section 1: `render`, `status`, `put` and
`stream`. (`flush` is in Ops.) -/

namespace Sys2Proof.Machine

/-- The segments 0..13 in order. -/
def allSegments : List Seg := List.finRange 14

/-- `render(m, d)` on an image (R103): OR in the bit of every lit segment. -/
def renderImage (cfg : Config) (m : Mask14) (d : Nat) (img : Memory) : Memory :=
  allSegments.foldl (fun img g =>
    if m.getLsbD g.val then orImage (segaddr cfg g d).1 (segaddr cfg g d).2 img else img) img

/-- `render(m, d)` (R103), for `d < NDIG`; beyond it as `segaddr` (log entry 16). -/
def render (m : Mask14) (d : Nat) (s : State) : State := setImg (renderImage s.cfg m d s.img) s

/-- The byte of the decimal or colon status bit of the chip that owns the cursor position (R107). -/
def statusAddress (c : Byte) (s : State) : Nat :=
  16 * (s.cursor / 4) + (if c = dotChar then s.cfg.decOff.val else s.cfg.colOff.val)

/-- `status(c)`, for c = '.' or c = ':' (R107). -/
def status (c : Byte) (s : State) : State := memOr (statusAddress c s) 0x01 s

/-- `put(c, d)` (R100): a special character sets a status bit and ignores d, any other is rendered at
digit d. The first test is the model's own and holds in every reachable state (log entry 7). -/
def put (c : Byte) (d : Nat) (s : State) : Except Fault State :=
  if isSpecial c then
    if digitInChain s s.cursor then .ok (status c s) else .error .imageRange
  else
    if digitInChain s d then .ok (render (glyph s c) d s) else .error .digitRange

/-- What the stream does after putting a character at the cursor (R108): an ordinary one is recorded
in the shadow and the cursor advances. -/
def recordAndAdvance (c : Byte) (s : State) : State :=
  if isSpecial c then s else advanceCursor (shadowWrite s.cursor c s)

/-- The loop of `stream` over the characters still to come (R108). -/
def streamChars : List Byte → State → Except Fault State
  | [], s => .ok s
  | c :: cs, s =>
    match put c s.cursor s with
    | .ok t => streamChars cs (recordAndAdvance c t)
    | .error f => .error f

/-- `stream(cs)` (R108): zero the image, home the cursor, put each character, flush once. -/
def stream (cs : List Byte) (s : State) : Outcome :=
  match streamChars cs (setCursor 0 (zeroImage s)) with
  | .ok t => .next (completeWithFlush t)
  | .error f => .fault f

end Sys2Proof.Machine
end

