-- ==== Sys2Proof/Machine/Buffer.lean ====
section
/-! DEFINITION. The display-RAM update engine (42_buffer_update.md): WRCHAR, CLEAR, WRSTREAM, WRBYTE,
FLUSH. -/

namespace Sys2Proof.Machine

/-- WRCHAR c, d (R101): put one character at an explicit digit; no flush, the cursor stays. -/
def execWrchar (c d : Byte) (s : State) : Outcome :=
  whenReady s <|
    match put c d.toNat s with
    | .ok t => .next (setOk true t)
    | .error f => .fault f

/-- CLEAR (R102): zero the image, home the cursor, flush. -/
def execClear (s : State) : Outcome :=
  whenReady s (.next (completeWithFlush (setCursor 0 (zeroImage s))))

/-- WRSTREAM cs (R104). -/
def execWrstream (cs : List Byte) (s : State) : Outcome := whenReady s (stream cs s)

/-- WRBYTE c (R105): put one character at the cursor, advance past an ordinary one, flush. -/
def execWrbyte (c : Byte) (s : State) : Outcome :=
  whenReady s <|
    match put c s.cursor s with
    | .ok t => .next (completeWithFlush (if isSpecial c then t else advanceCursor t))
    | .error f => .fault f

/-- FLUSH (R109). -/
def execFlush (s : State) : Outcome := whenReady s (.next (completeWithFlush s))

end Sys2Proof.Machine
end

