-- ==== Sys2Proof/Machine/Glyph.lean ====
section
/-! DEFINITION. The glyph store (40_glyph_rom.md): GLYPHQ, DEFGLYPH, and the 94-entry table that
10_state.md R16 says is equivalent to the override sequence. -/

namespace Sys2Proof.Machine

/-- GLYPHQ c (R74). -/
def execGlyphq (c : Byte) (s : State) : Outcome :=
  whenReady s (.next (setOk true (setRes0 ((glyph s c).setWidth 16) s)))

/-- DEFGLYPH c, m (R75): an override for '!'..'~' is appended, any other character is rejected. -/
def execDefglyph (c : Byte) (m : BitVec 16) (s : State) : Outcome :=
  whenReady s <|
    if isDefinable c then
      .next (setOk true (setOvr (s.ovr ++ [⟨c.toNat - 0x20, keptMask m⟩]) s))
    else .next (setOk false s)

/-! The table of R16: one optional mask (its valid bit) per index 1..94. -/

/-- The empty table. -/
def emptyTable : List (Option Mask14) := List.replicate 94 none

/-- The mask the table holds for an index. -/
def tableEntry (t : List (Option Mask14)) (i : Nat) : Option Mask14 :=
  if i = 0 then none else (t[i - 1]?).join

/-- A write to the table: dropped where the entry is already valid (R16). -/
def tableWrite (t : List (Option Mask14)) (e : Override) : List (Option Mask14) :=
  if (tableEntry t e.index).isSome then t else t.set (e.index - 1) (some e.mask)

/-- The table after the overrides of a sequence are written in insertion order. -/
def tableOf (ovr : List Override) : List (Option Mask14) := ovr.foldl tableWrite emptyTable

end Sys2Proof.Machine
end

