-- ==== Sys2Proof/Machine/Segment.lean ====
section
/-! DEFINITION. The query of the segment address decoder (41_segment_address.md): SEGQ. -/

namespace Sys2Proof.Machine

/-- SEGQ g, d (R92): the byte offset in `RES0`, the bit mask in `RES1`; a digit outside the chain
faults before any write (R91). -/
def execSegq (g : Seg) (d : Byte) (s : State) : Outcome :=
  whenReady s <|
    if digitInChain s d.toNat then
      .next (setOk true
        (setRes1 (segaddr s.cfg g d.toNat).2
          (setRes0 (BitVec.ofNat 16 (segaddr s.cfg g d.toNat).1) s)))
    else .fault .digitRange

end Sys2Proof.Machine
end

