-- ==== Sys2Proof/Machine/Shift.lean ====
section
/-! DEFINITION. The shift commands (43_shift.md): SHL, SHR. -/

namespace Sys2Proof.Machine

/-- A shift amount inside the chain; any other is rejected on the full 8-bit operand (R123). -/
def shiftAccepted (n : Byte) (s : State) : Bool := decide (n.toNat < s.cfg.ndig)

/-- SHL n (R121): rejected with `OK = 0`, or the shifted snapshot is streamed. -/
def execShl (n : Byte) (s : State) : Outcome :=
  whenReady s <|
    if shiftAccepted n s then stream (shiftedLeft n.toNat s) s else .next (setOk false s)

/-- SHR n (R122). -/
def execShr (n : Byte) (s : State) : Outcome :=
  whenReady s <|
    if shiftAccepted n s then stream (shiftedRight n.toNat s) s else .next (setOk false s)

end Sys2Proof.Machine
end

