-- ==== Sys2Proof/Machine/System.lean ====
section
/-! DEFINITION. Bringing the chain up: INIT (44_system.md R130), and what the block refuses outside its
command set (R131, 60_exceptions.md R151). -/

namespace Sys2Proof.Machine

/-- The phase an initialisation attempt leads to (R130). -/
def phaseAfterInit (ok : Bool) : Phase := if ok then .ready else .failed

/-- INIT (R130): one answer of the environment stands for the whole attempt. -/
def execInit (s : State) : Outcome :=
  whenUninit s (.next
    (setOk (nextAnswer s) (setPhase (phaseAfterInit (nextAnswer s))
      (logEvent (.initAttempt (nextAnswer s)) (answerDrawn s)))))

/-- An operation of R131 has no command and no meaning: refused `Unmodelled` in every state (R143). -/
def boundaryOperation (op : BoundaryOp) (_s : State) : Outcome := .refused (.unmodelled op)

/-- Two commands presented at once have no meaning: refused (60_exceptions.md R151, 20_memory.md R37). -/
def presentTogether (_i _j : Instr) (_s : State) : Outcome := .refused .concurrentCommands

end Sys2Proof.Machine
end

