-- ==== Sys2Proof/Machine/Dispatch.lean ====
section
/-! DEFINITION. One arm per command (30_encoding.md R50). -/

namespace Sys2Proof.Machine

def exec (i : Instr) (s : State) : Host.Outcome State Fault Refusal :=
  match i with
  | .init => Sys2Proof.Machine.execInit s
  | .clear => Sys2Proof.Machine.execClear s
  | .flush => Sys2Proof.Machine.execFlush s
  | .wrchar c d => Sys2Proof.Machine.execWrchar c d s
  | .wrbyte c => Sys2Proof.Machine.execWrbyte c s
  | .wrstream cs => Sys2Proof.Machine.execWrstream cs s
  | .shl n => Sys2Proof.Machine.execShl n s
  | .shr n => Sys2Proof.Machine.execShr n s
  | .defglyph c m => Sys2Proof.Machine.execDefglyph c m s
  | .glyphq c => Sys2Proof.Machine.execGlyphq c s
  | .segq g d => Sys2Proof.Machine.execSegq g d s

end Sys2Proof.Machine
end

