-- ==== Sys2Proof/Machine/Step.lean ====
section
/-! DEFINITION. One step: the next presented command is taken, decoded and executed. -/

namespace Sys2Proof.Machine

/-- One step. Decoding is tested before everything else (60_exceptions.md R147); an invalid command is
refused; where the host has presented nothing the block stays as it is (log entry 1). -/
def step (s : State) : Host.Outcome State Fault Refusal :=
  match fetch s with
  | none => .next s
  | some (.invalid r) => .refused (refusalOf r)
  | some (.command i rest) => exec i (setInput rest s)

/-- The state with the command of a table word presented, so that the next step runs it. -/
def State.withFetchWord (s : State) (nbits w : Nat) : State := presentTableWord nbits w s

end Sys2Proof.Machine
end

