-- ==== Sys2Proof/Machine/Assembler.lean ====
section
/-! DEFINITION. The written form of commands (30_encoding.md R57, R58): one line of text to the bytes it
stands for. The bytes need not decode: `SEGQ 14, 0` is written and is an invalid command (section 8). -/

namespace Sys2Proof.Machine

/-- The pieces of a line. -/
inductive Token where
  | word (cs : List Char)
  | number (n : Nat)
  | quoted (c : Char)
  | text (cs : List Char)
  | comma
  | opening
  | closing
deriving DecidableEq, Repr

/-- The value of a digit in bases up to 16. -/
def digitValue (c : Char) : Option Nat :=
  if c.isDigit then some (c.toNat - 0x30)
  else if 0x41 ≤ c.toNat ∧ c.toNat ≤ 0x46 then some (c.toNat - 0x41 + 10)
  else if 0x61 ≤ c.toNat ∧ c.toNat ≤ 0x66 then some (c.toNat - 0x61 + 10)
  else none

/-- The number that digits of a base write, most significant first. -/
def numberIn (base : Nat) : Nat → List Char → Option Nat
  | acc, [] => some acc
  | acc, c :: cs =>
    match digitValue c with
    | some v => if v < base then numberIn base (acc * base + v) cs else none
    | none => none

/-- Numbers are decimal unless written 0x.. or 0b.. (00_scope.md section 5). -/
def numberOf : List Char → Option Nat
  | '0' :: 'x' :: c :: cs => numberIn 16 0 (c :: cs)
  | '0' :: 'b' :: c :: cs => numberIn 2 0 (c :: cs)
  | cs => numberIn 10 0 cs

/-- The tokens of a line up to its comment; `fuel` bounds the length. Character codes: 0x3B `;`, 0x20
space, 0x2C comma, 0x5B and 0x5D brackets, 0x27 and 0x22 the two quotes. -/
def tokens : Nat → List Char → Option (List Token)
  | 0, _ => none
  | _ + 1, [] => some []
  | fuel + 1, c :: cs =>
    if c.toNat = 0x3B then some []
    else if c.toNat = 0x20 then tokens fuel cs
    else if c.toNat = 0x2C then (tokens fuel cs).map (.comma :: ·)
    else if c.toNat = 0x5B then (tokens fuel cs).map (.opening :: ·)
    else if c.toNat = 0x5D then (tokens fuel cs).map (.closing :: ·)
    else if c.toNat = 0x27 then
      match cs with
      | x :: q :: rest =>
        if q.toNat = 0x27 then (tokens fuel rest).map (.quoted x :: ·) else none
      | _ => none
    else if c.toNat = 0x22 then
      match cs.dropWhile (fun x => x.toNat != 0x22) with
      | _ :: rest =>
        (tokens fuel rest).map (.text (cs.takeWhile (fun x => x.toNat != 0x22)) :: ·)
      | [] => none
    else if c.isAlphanum then
      let body := c :: cs.takeWhile Char.isAlphanum
      let rest := cs.dropWhile Char.isAlphanum
      if c.isDigit then (numberOf body).bind (fun n => (tokens fuel rest).map (.number n :: ·))
      else (tokens fuel rest).map (.word body :: ·)
    else none

/-- A number that fits a byte. -/
def byteOfNat (n : Nat) : Option Byte := if n < 256 then some (BitVec.ofNat 8 n) else none

/-- A character operand: a quoted character or a byte value (R57). -/
def charOperand : Token → Option Byte
  | .quoted c => byteOfNat c.toNat
  | .number n => byteOfNat n
  | _ => none

/-- A digit index or a shift amount: a number (R57). -/
def byteOperand : Token → Option Byte
  | .number n => byteOfNat n
  | _ => none

/-- A segment: its letter A..N or its index (R57). -/
def segmentOperand : Token → Option Byte
  | .number n => byteOfNat n
  | .word [c] => if 0x41 ≤ c.toNat ∧ c.toNat ≤ 0x4E then byteOfNat (c.toNat - 0x41) else none
  | _ => none

/-- The rest of a bracketed list of byte values. -/
def listTail : List Token → Option (List Byte)
  | [.closing] => some []
  | .comma :: .number n :: ts => (byteOfNat n).bind (fun b => (listTail ts).map (b :: ·))
  | _ => none

/-- A stream: a quoted string or a bracketed list of byte values (R57). -/
def streamOperand : List Token → Option (List Byte)
  | [.text cs] => cs.mapM (fun c => byteOfNat c.toNat)
  | [.opening, .closing] => some []
  | .opening :: .number n :: ts => (byteOfNat n).bind (fun b => (listTail ts).map (b :: ·))
  | _ => none

/-- The bytes of a stream command (R51, format FV); none where the count byte cannot hold the length. -/
def streamBytes (cs : List Byte) : Option (List Byte) :=
  if cs.length ≤ 255 then some (encode (.wrstream cs)) else none

/-- One opcode byte and one operand. -/
def oneOperand (op : Byte) (f : Token → Option Byte) : List Token → Option (List Byte)
  | [x] => (f x).map (fun a => [op, a])
  | _ => none

/-- One opcode byte and two operands. -/
def twoOperands (op : Byte) (f g : Token → Option Byte) : List Token → Option (List Byte)
  | [x, .comma, y] => (f x).bind (fun a => (g y).map (fun b => [op, a, b]))
  | _ => none

/-- The operands of DEFGLYPH: a character and a 16-bit number, sent low byte first (R53). -/
def glyphOperands : List Token → Option (List Byte)
  | [x, .comma, .number m] =>
    if m < 0x10000 then (charOperand x).map (fun c => encode (.defglyph c (BitVec.ofNat 16 m)))
    else none
  | _ => none

/-- A command from its mnemonic and operand tokens (R57); PRINT is the pseudo-command of R58. -/
def assembleCommand (mnemonic : List Char) (ts : List Token) : Option (List Byte) :=
  if mnemonic = "INIT".toList then (if ts = [] then some [0x01] else none)
  else if mnemonic = "CLEAR".toList then (if ts = [] then some [0x02] else none)
  else if mnemonic = "FLUSH".toList then (if ts = [] then some [0x03] else none)
  else if mnemonic = "WRCHAR".toList then twoOperands 0x10 charOperand byteOperand ts
  else if mnemonic = "WRBYTE".toList then oneOperand 0x11 charOperand ts
  else if mnemonic = "WRSTREAM".toList then (streamOperand ts).bind streamBytes
  else if mnemonic = "PRINT".toList then (streamOperand ts).bind streamBytes
  else if mnemonic = "SHL".toList then oneOperand 0x20 byteOperand ts
  else if mnemonic = "SHR".toList then oneOperand 0x21 byteOperand ts
  else if mnemonic = "DEFGLYPH".toList then glyphOperands ts
  else if mnemonic = "GLYPHQ".toList then oneOperand 0x40 charOperand ts
  else if mnemonic = "SEGQ".toList then twoOperands 0x41 segmentOperand byteOperand ts
  else none

/-- The bytes of one line; a blank or comment line has none (R57). -/
def assembleLine (line : List Char) : Option (List Byte) :=
  match tokens (line.length + 1) line with
  | some (.word m :: ts) => assembleCommand m ts
  | some [] => some []
  | _ => none

/-- The bytes of a program, one command per line (R57). -/
def assemble (lines : List String) : Option (List Byte) :=
  (lines.mapM (fun l => assembleLine l.toList)).map List.flatten

/-- The source's name of a command, where R58 gives one. -/
def sourceName : Instr → Option String
  | .wrchar _ _ => some "writeCharacter"
  | .clear => some "clear"
  | .wrstream _ => some "writeStream"
  | .wrbyte _ => some "writeByte"
  | .shl _ => some "shiftLeft"
  | .shr _ => some "shiftRight"
  | .flush => some "flush"
  | .glyphq _ => some "glyphOf"
  | .segq _ _ => some "segmentAddress"
  | .init | .defglyph _ _ => none

end Sys2Proof.Machine
end

