-- ==== Sys2Proof/Machine/Run.lean ====
section
/-! DEFINITION. Runs: a reset, the finite list of what the host presents, the marks a run keeps, and its
end (70_reset_and_hazards.md R174, 60_exceptions.md R142, R143). -/

namespace Sys2Proof.Machine

/-- One thing a host presents: a command of 30_encoding.md R50 as it is (a stream of any length, R56),
the bytes of a command or of several (R51), an operation of 44_system.md R131, or two commands at once
(60_exceptions.md R151). -/
inductive Presentation where
  | command (i : Instr)
  | bytes (bs : List Byte)
  | operation (op : BoundaryOp)
  | together (i j : Instr)
deriving DecidableEq, Repr

/-- The bytes a presentation brings. -/
def presentedBytes : Presentation → List Byte
  | .bytes bs => bs
  | .command _ | .operation _ | .together _ _ => []

/-- The outcome of a presentation in a state with no byte left to take; of several commands in bytes,
that of the first. -/
def presentationOutcome (p : Presentation) (s : State) : Outcome :=
  match p with
  | .command i => exec i s
  | .bytes bs => step (setInput bs s)
  | .operation op => boundaryOperation op s
  | .together i j => presentTogether i j s

/-- What is left of presented bytes after the command they begin with, executed or not: its length is
found from its first bytes alone (30_encoding.md R56), so an illegal operand ends no more than its own
command. Where no length can be found, nothing is left of this presentation (log entry 9). -/
def bytesAfterCommand (bs : List Byte) : List Byte :=
  match commandLength bs with
  | some n => bs.drop n
  | none => []

/-- A run under way: the block, what the host has still to present, and the marks kept for the rest of
the run: the first fault, and every refusal (60_exceptions.md R142, R143). -/
structure RunState where
  state : State
  program : List Presentation
  fault : Option Fault
  refusals : List Refusal
deriving DecidableEq, Repr

/-- A run that presents a program to a block in a given state. -/
def runFrom (s : State) (program : List Presentation) : RunState where
  state := s
  program := program
  fault := none
  refusals := []

/-- A run (R174): a reset, with the configuration in place before it (R160) and the environment's
answers, followed by a finite list of commands. -/
def runOf (cfg : Config) (program : List Presentation) (answers : List Bool) : RunState :=
  runFrom { State.reset with cfg := cfg, answers := answers } program

/-- The run after an outcome (60_exceptions.md R141): a completed command's state; or the block as it
was, with the mark and the bytes after the command. The state beside a fault has no meaning (R142). -/
def RunState.conclude (r : RunState) (o : Outcome) (left : List Byte) : RunState :=
  match o with
  | .next s => { r with state := s }
  | .fault f => { r with state := setInput left r.state, fault := some f }
  | .refused q => { r with state := setInput left r.state, refusals := r.refusals ++ [q] }

/-- One command of a run: the next of the bytes presented last, else the next presentation. Whatever
its outcome, the next command is the one the host presents next (30_encoding.md R59), save that nothing
has a meaning after a fault (R142). -/
def RunState.advance (r : RunState) : RunState :=
  match r.fault, r.state.input, r.program with
  | some _, _, _ => r
  | none, b :: bs, _ => r.conclude (step r.state) (bytesAfterCommand (b :: bs))
  | none, [], [] => r
  | none, [], p :: ps =>
    { r with program := ps }.conclude (presentationOutcome p r.state)
      (bytesAfterCommand (presentedBytes p))

/-- k commands of a run. -/
def RunState.run : Nat → RunState → RunState
  | 0, r => r
  | k + 1, r => RunState.run k r.advance

/-- A bound on the commands still to come: each byte not yet taken and each presentation counts. -/
def RunState.remaining (r : RunState) : Nat :=
  r.state.input.length + (r.program.map (fun p => 1 + (presentedBytes p).length)).sum

/-- The run carried on to its end, or to the fault that stops it. -/
def RunState.finish (r : RunState) : RunState := r.run r.remaining

/-- A run has ended when the last command of the list has reached its outcome (R174). One that a fault
stops before the last command never ends. -/
def RunState.ended (r : RunState) : Bool := r.program.isEmpty && r.state.input.isEmpty

/-- No command so far faulted and none was refused. -/
def RunState.unmarked (r : RunState) : Bool := r.fault.isNone && r.refusals.isEmpty

/-- A good run: it has ended, no command faulted and none was refused (R174). -/
def RunState.good (r : RunState) : Bool := r.ended && r.unmarked

end Sys2Proof.Machine
end

