-- ==== Sys2Proof/Safety.lean ====
section
/-! DEFINITION. The terms claims use: the legal states, and what a command's end is compared with. (Runs
and their marks are in Machine/Run.lean.) -/

namespace Sys2Proof.Machine

/-- Every stored override has an index in 1..94 (10_state.md R16, R23); its mask is 14 bits by type. -/
abbrev OverridesLegal (ovr : List Override) : Prop := ∀ e ∈ ovr, 1 ≤ e.index ∧ e.index ≤ 94

/-- An event the block can have recorded (20_memory.md R36): a write of sixteen bytes to a chip of the
chain at its address. -/
abbrev EventLegal (cfg : Config) : Event → Prop
  | .busWrite k addr data _ => k < cfg.n ∧ cfg.chain[k]? = some addr ∧ data.length = 16
  | .initAttempt _ => True

/-- The invariants of 10_state.md R23, with the configuration's ranges (00_scope.md R3) and the
canonical form of the two byte stores, and a trace of events the block can have recorded. -/
structure Invariants (s : State) : Prop where
  cfg : s.cfg.Legal
  cursor : s.cursor < s.cfg.ndig
  ovr : OverridesLegal s.ovr
  imgWf : s.img.wf = true
  imgWithin : s.img.within s.cfg.imgsz = true
  shadowWf : s.shadow.wf = true
  shadowWithin : s.shadow.within s.cfg.ndig = true
  trace : ∀ e ∈ s.trace, EventLegal s.cfg e

/-- The environment's coming answer number j, counted from 0 (20_memory.md R36). -/
def answerAt (s : State) (j : Nat) : Bool :=
  (s.answers[j]?).getD (Config.freeAnswer (s.draws + j))

/-- The AND of the coming N answers: the result bit of a flush (42_buffer_update.md R106). -/
def flushOk (s : State) : Bool := (List.range s.cfg.n).all (answerAt s)

/-- The events a flush appends when it pushes the image of `t` and the environment answers as in `s`:
one per chip, in ascending chain order (R106). -/
def flushEvents (s t : State) : List Event :=
  (List.range s.cfg.n).map (fun k => .busWrite k (chipAddress s k) (chipBlock t k) (answerAt s k))

/-- `t` is `s` but for its image, cursor and shadow, and for one flush of `t`'s own image: `OK` is the
AND of the answers, `TRACE` gained the N events, N answers are drawn. Nothing else differs. -/
def FlushedFrom (s t : State) : Prop :=
  t = { s with
    img := t.img
    cursor := t.cursor
    shadow := t.shadow
    ok := flushOk s
    trace := s.trace ++ flushEvents s t
    answers := s.answers.drop s.cfg.n
    draws := s.draws + s.cfg.n }

/-- The commands that end in a flush (60_exceptions.md R144, F-BUS): a shift does so unless its amount
is rejected. -/
def flushes (cfg : Config) : Instr → Bool
  | .clear | .flush | .wrbyte _ | .wrstream _ => true
  | .shl n | .shr n => decide (n.toNat < cfg.ndig)
  | .init | .wrchar _ _ | .defglyph _ _ | .glyphq _ | .segq _ _ => false

/-- The ordinary characters of a stream: those that take a position (R108). -/
def ordinaries (cs : List Byte) : List Byte := cs.filter (fun c => !isSpecial c)

/-- `DEC_OFF` for '.', `COL_OFF` for ':' (R107). -/
def statusOffset (cfg : Config) (c : Byte) : Nat :=
  if c = dotChar then cfg.decOff.val else cfg.colOff.val

/-- Bit b of byte a is the bit of some segment of digit d that is lit in m (R103). -/
def LitBit (cfg : Config) (m : Mask14) (d a b : Nat) : Prop :=
  ∃ g : Seg, m.getLsbD g.val = true ∧ segaddr cfg g d = (a, 1#8 <<< b)

/-- No recorded character of the shadow is a special one, which streams guarantee (43_shift.md R121). -/
def ShadowOrdinary (s : State) : Prop :=
  ∀ i v, s.shadow.lookup i = some v → isSpecial v = false

end Sys2Proof.Machine
end

