-- ==== Sys2Proof/Certificates/Slice0/Obligations.lean ====
section
/-! DEFINITION. The statements for the provers. Each docstring names the rule it rests on; where a clause
rests on a decision the spec marks as its own, or on a log entry of the model, the docstring says so. -/

open Sys2Proof Sys2Proof.Machine

/-! ## Commands and their bytes -/

/-- The worked encodings of 30_encoding.md section 8 decode to the commands they stand for, and the
reserved, ill-formed and truncated ones to `invalid` (R51 to R55; the encoding is decision D1). -/
def Obligations.SpecWordsDecode : Prop :=
  decode [0x01] = .command .init [] ∧
  decode [0x02] = .command .clear [] ∧
  decode [0x03] = .command .flush [] ∧
  decode [0x10, 0x41, 0x00] = .command (.wrchar 0x41 0) [] ∧
  decode [0x11, 0x2E] = .command (.wrbyte 0x2E) [] ∧
  decode [0x12, 0x02, 0x41, 0x42] = .command (.wrstream [0x41, 0x42]) [] ∧
  decode [0x12, 0x00] = .command (.wrstream []) [] ∧
  decode [0x20, 0x01] = .command (.shl 1) [] ∧
  decode [0x21, 0x02] = .command (.shr 2) [] ∧
  decode [0x30, 0x21, 0xFF, 0x3F] = .command (.defglyph 0x21 0x3FFF) [] ∧
  decode [0x30, 0x41, 0x77, 0xC1] = .command (.defglyph 0x41 0xC177) [] ∧
  decode [0x40, 0x7E] = .command (.glyphq 0x7E) [] ∧
  decode [0x41, 0x07, 0x05] = .command (.segq 7 5) [] ∧
  decode [0x01, 0x02] = .command .init [0x02] ∧
  decode [0x41, 0x0E, 0x00] = .invalid .operand ∧
  decode [0x00] = .invalid .opcode ∧ decode [0x04] = .invalid .opcode ∧
  decode [0x13] = .invalid .opcode ∧ decode [0xFF] = .invalid .opcode ∧
  decode [0x10, 0x41] = .invalid .truncated ∧ decode [0x12, 0x03, 0x41, 0x42] = .invalid .truncated

/-- Decoding the encoding of a well-formed command gives that command back, with every operand at every
value, and leaves the bytes after it (30_encoding.md R51 to R54, R56; decision D1). -/
def Obligations.DecodeOfEncodeIsTheCommand : Prop :=
  ∀ (i : Instr) (rest : List Byte), i.wellFormed = true →
    decode (encode i ++ rest) = .command i rest

/-- Each command has one byte form: bytes that decode are the encoding of a well-formed command and the
remaining bytes (R51, R54, R55). -/
def Obligations.DecodedBytesAreTheEncoding : Prop :=
  ∀ (bs : List Byte) (i : Instr) (rest : List Byte), decode bs = .command i rest →
    i.wellFormed = true ∧ bs = encode i ++ rest

/-- In every state, whatever its phase, presented bytes that are no command are refused by the name of
what is wrong with them: a reserved opcode, a SEGQ segment of 14 or more, a missing byte (R55,
60_exceptions.md R143, R147; decision D20). -/
def Obligations.InvalidBytesAreRefusedByName : Prop :=
  ∀ (s : State) (op : Byte) (rest : List Byte), s.input = op :: rest →
    (op.toNat ∉ [0x01, 0x02, 0x03, 0x10, 0x11, 0x12, 0x20, 0x21, 0x30, 0x40, 0x41] →
      step s = .refused .invalidOpcode) ∧
    (∀ a d after, op = 0x41 → rest = a :: d :: after → 14 ≤ a.toNat →
      step s = .refused .invalidOperand) ∧
    (∀ n, commandLength s.input = some n → s.input.length < n → step s = .refused .truncated) ∧
    (op = 0x12 → rest = [] → step s = .refused .truncated)

/-- A command's length is found from byte 0 alone, 1, 2, 3 or 4, or for opcode 0x12 from byte 1 as
2 + n, and a decoded command takes exactly that many bytes (R51, R56; decision D1). -/
def Obligations.CommandLengthFromTheFirstBytes : Prop :=
  ∀ (op : Byte) (after : List Byte) (i : Instr) (rest : List Byte),
    decode (op :: after) = .command i rest →
    ∃ n, commandLength (op :: after) = some n ∧ n ≤ (op :: after).length ∧
      rest = (op :: after).drop n ∧
      (op ≠ 0x12 → n ≤ 4 ∧ ∀ other, commandLength (op :: other) = some n) ∧
      (op = 0x12 → ∃ c cs, after = c :: cs ∧ n = 2 + c.toNat)

/-- The mask operand of DEFGLYPH is little-endian: `m = mhi * 256 + mlo` (R53; decision D1). -/
def Obligations.MaskOperandIsLittleEndian : Prop :=
  ∀ (c mlo mhi : Byte) (rest : List Byte),
    ∃ m : BitVec 16, decode (0x30 :: c :: mlo :: mhi :: rest) = .command (.defglyph c m) rest ∧
      m.toNat = mhi.toNat * 256 + mlo.toNat

/-- The written forms of 30_encoding.md section 8 and the pseudo-command PRINT assemble to their bytes
(R57, R58; decision D1). -/
def Obligations.WrittenCommandsAssemble : Prop :=
  assemble ["INIT", "CLEAR", "FLUSH", "WRCHAR 'A', 0", "WRBYTE '.'", "WRSTREAM \"AB\"",
      "WRSTREAM \"\"", "SHL 1", "SHR 2"] =
    some [0x01, 0x02, 0x03, 0x10, 0x41, 0x00, 0x11, 0x2E, 0x12, 0x02, 0x41, 0x42, 0x12, 0x00,
      0x20, 0x01, 0x21, 0x02] ∧
  assemble ["DEFGLYPH '!', 0x3FFF", "DEFGLYPH 'A', 0xC177", "GLYPHQ '~'", "SEGQ H, 5",
      "SEGQ 14, 0", "PRINT \"AB\"", "WRSTREAM [0x7F] ; one byte"] =
    some [0x30, 0x21, 0xFF, 0x3F, 0x30, 0x41, 0x77, 0xC1, 0x40, 0x7E, 0x41, 0x07, 0x05,
      0x41, 0x0E, 0x00, 0x12, 0x02, 0x41, 0x42, 0x12, 0x01, 0x7F]

/-! ## A step -/

/-- When the presented bytes decode to a command, step is exec of it on the state whose input is the
remaining bytes, and nothing else is added around exec; invalid bytes are refused; with nothing
presented the state stays (the last clause is the model's choice, log entry 1). -/
def Obligations.StepRunsTheDecodedCommand : Prop :=
  ∀ s : State,
    (∀ i rest, decode s.input = .command i rest → step s = exec i { s with input := rest }) ∧
    (∀ r, s.input ≠ [] → decode s.input = .invalid r → step s = .refused (refusalOf r)) ∧
    (s.input = [] → step s = .next s)

/-! ## Reset and invariants -/

/-- The values 10_state.md R22 and 70_reset_and_hazards.md R160 give for reset: PHASE UNINIT, OVR empty,
CURSOR, OK, RES0, RES1 zero, TRACE empty, every chip's memory unknown, and no byte of IMG or SHADOW
written. (CURSOR, OK, RES0, RES1 and the unwritten bytes are the spec's decision D16; that nothing is
presented and no answer settled is log entries 1 and 2.) -/
def Obligations.ResetValues : Prop :=
  let s := State.reset
  s.phase = .uninit ∧ s.ovr = [] ∧ s.cursor = 0 ∧ s.ok = false ∧ s.res0 = 0 ∧ s.res1 = 0 ∧
  s.trace = [] ∧ (∀ k, chipMemory k s.trace = none) ∧
  (∀ a, s.img.lookup a = none) ∧ (∀ i, s.shadow.lookup i = none) ∧
  s.input = [] ∧ s.answers = []

/-- The configuration at reset is a legal record of 00_scope.md R3 with the ROM entries 40_glyph_rom.md
R73 fixes, and its COMTAB is the table of 41_segment_address.md R86: segment index modulo 7, lower half
for A..G, upper half for H..N (the values for H and I are resolved in 90_conflicts.md C2, decision D4;
the free values are log entry 3). -/
def Obligations.ConfigurationOfThisHardware : Prop :=
  State.reset.cfg.Legal ∧ State.reset.cfg.DistinctSegments ∧
  ∀ g : Seg, (segEntry State.reset.cfg g).common.val = g.val % 7 ∧
    halfOffset (segEntry State.reset.cfg g).half = if g.val < 7 then 0 else 4

/-- Reset meets the invariants of 10_state.md R23. -/
def Obligations.ResetMeetsTheInvariants : Prop := Invariants State.reset

/-- From every state that meets the invariants of 10_state.md R23 a step leads to one that does: the
cursor stays inside the chain, every override has index 1..94, IMG and SHADOW keep their canonical form
and their sizes, the configuration stays legal, and every event of TRACE is one the block can send. -/
def Obligations.StepKeepsTheInvariants : Prop :=
  ∀ s t : State, Invariants s → step s = .next t → Invariants t

/-- No command changes the configuration record (00_scope.md R3). -/
def Obligations.ConfigurationNeverChanges : Prop :=
  ∀ s t : State, step s = .next t → t.cfg = s.cfg

/-- Only INIT writes PHASE, it runs only in UNINIT and always leaves it; so no step leaves READY or
FAILED (10_state.md R14, R23). -/
def Obligations.PhaseMovesOnlyByInit : Prop :=
  (∀ i s t, exec i s = .next t →
    (i ≠ .init → t.phase = s.phase) ∧
    (i = .init → s.phase = .uninit ∧ (t.phase = .ready ∨ t.phase = .failed))) ∧
  (∀ s t, step s = .next t → s.phase ≠ .uninit → t.phase = s.phase)

/-- Overrides are never removed, changed or reordered: only DEFGLYPH appends, one element, whose index
is that of a character in '!'..'~' (10_state.md R16). -/
def Obligations.OverridesOnlyGrow : Prop :=
  ∀ i s t, exec i s = .next t →
    t.ovr = s.ovr ∨
    ∃ c m e, i = .defglyph c m ∧ t.ovr = s.ovr ++ [e] ∧ e.index = c.toNat - 0x20 ∧
      1 ≤ e.index ∧ e.index ≤ 94 ∧ e.mask = keptMask m

/-- Only CLEAR, WRSTREAM, SHL and SHR can clear a bit of the image; after any other command every bit
that was 1 is 1 (20_memory.md R35). -/
def Obligations.OtherCommandsOnlySetImageBits : Prop :=
  ∀ i s t, exec i s = .next t → i ≠ .clear → (∀ cs, i ≠ .wrstream cs) → (∀ n, i ≠ .shl n) →
    (∀ n, i ≠ .shr n) →
    ∀ a b, (memRead s a).getLsbD b = true → (memRead t a).getLsbD b = true

/-- SHADOW is written by WRSTREAM, SHL and SHR only (10_state.md R17; decision D9). -/
def Obligations.ShadowWrittenOnlyByStreams : Prop :=
  ∀ i s t, exec i s = .next t → (∀ cs, i ≠ .wrstream cs) → (∀ n, i ≠ .shl n) →
    (∀ n, i ≠ .shr n) → t.shadow = s.shadow

/-- RES0 is written by GLYPHQ and SEGQ only, RES1 by SEGQ only (10_state.md R15; decision D25). -/
def Obligations.ResultRegistersWrittenOnlyByQueries : Prop :=
  ∀ i s t, exec i s = .next t → (∀ g d, i ≠ .segq g d) →
    t.res1 = s.res1 ∧ ((∀ c, i ≠ .glyphq c) → t.res0 = s.res0)

/-- In a state that meets the invariants a command faults exactly where 60_exceptions.md R142 says:
WRCHAR with an ordinary character and SEGQ, with a digit at or above NDIG, while READY; and the fault is
DigitRange (decision D19). -/
def Obligations.OnlyDigitRangeFaults : Prop :=
  ∀ (s : State) (i : Instr) (f : Fault), Invariants s →
    (exec i s = .fault f ↔
      f = .digitRange ∧ s.phase = .ready ∧
      ((∃ c d, i = .wrchar c d ∧ isSpecial c = false ∧ s.cfg.ndig ≤ d.toNat) ∨
        ∃ g d, i = .segq g d ∧ s.cfg.ndig ≤ d.toNat))

/-- In every state a decoded command is refused exactly by its phase: every command but INIT outside
READY with NotReady, INIT outside UNINIT with AlreadyInitialised; no operand is ever a reason, so the
phase is tested before the operand range (60_exceptions.md R143, R147; decisions D17, D20). -/
def Obligations.RefusalsAreByPhase : Prop :=
  ∀ (s : State) (i : Instr) (q : Refusal),
    exec i s = .refused q ↔
      (i ≠ .init ∧ s.phase ≠ .ready ∧ q = .notReady) ∨
      (i = .init ∧ s.phase ≠ .uninit ∧ q = .alreadyInitialised)

/-- In a READY state that meets the invariants every command but INIT completes, whatever its operands
and whatever IMG and SHADOW hold, save the two DigitRange cases (60_exceptions.md R141, R142). -/
def Obligations.ReadyCommandsComplete : Prop :=
  ∀ (s : State) (i : Instr), Invariants s → s.phase = .ready → i ≠ .init →
    (∀ c d, i = .wrchar c d → isSpecial c = false → d.toNat < s.cfg.ndig) →
    (∀ g d, i = .segq g d → d.toNat < s.cfg.ndig) →
    ∃ t, exec i s = .next t

/-- No stream ever records a special character, so a shadow without one stays so, and reset has none
(43_shift.md R121, 42_buffer_update.md R108). -/
def Obligations.ShadowStaysOrdinary : Prop :=
  ShadowOrdinary State.reset ∧
  ∀ s t : State, ShadowOrdinary s → step s = .next t → ShadowOrdinary t

/-! ## Glyphs -/

/-- `idx(c)` is c - 0x20 on 0x20..0x7E and 95 elsewhere; it is injective there, and 161 byte values share
index 95 (40_glyph_rom.md R70). -/
def Obligations.TableIndexOfACharacter : Prop :=
  (∀ c : Byte, 0x20 ≤ c.toNat → c.toNat ≤ 0x7E → idx c = c.toNat - 0x20) ∧
  (∀ c : Byte, c.toNat < 0x20 ∨ 0x7E < c.toNat → idx c = 95) ∧
  (∀ c e : Byte, 0x20 ≤ c.toNat → c.toNat ≤ 0x7E → 0x20 ≤ e.toNat → e.toNat ≤ 0x7E →
    idx c = idx e → c = e) ∧
  (∀ i < 95, ∃ c : Byte, idx c = i) ∧
  ((List.range 256).filter (fun n => idx (BitVec.ofNat 8 n) == 95)).length = 161

/-- The lookup of a glyph: the first inserted override of the character's index governs, and where
there is none the ROM entry does (40_glyph_rom.md R72; that the first of two governs is decision D10). -/
def Obligations.FirstInsertedOverrideGoverns : Prop :=
  ∀ (s : State) (c : Byte),
    (∀ pre e post, s.ovr = pre ++ e :: post → (∀ x ∈ pre, x.index ≠ idx c) → e.index = idx c →
      glyph s c = e.mask) ∧
    ((∀ x ∈ s.ovr, x.index ≠ idx c) → s.cfg.Legal → s.cfg.rom[idx c]? = some (glyph s c))

/-- Space is always blank and a character outside 0x20..0x7E always shows the sentinel, whatever
overrides exist (40_glyph_rom.md R72, R73). -/
def Obligations.SpaceAndSentinelAreFixed : Prop :=
  ∀ s : State, s.cfg.Legal → OverridesLegal s.ovr →
    glyph s 0x20 = 0x0000 ∧ ∀ c, idx c = 95 → glyph s c = 0x3FFF

/-- The glyph of a character changes only at a DEFGLYPH of its index with no earlier override of that
index (40_glyph_rom.md R77, 20_memory.md R40). -/
def Obligations.GlyphChangesOnlyAtAFirstDefinition : Prop :=
  ∀ i s t c, exec i s = .next t → glyph t c ≠ glyph s c →
    ∃ e m, i = .defglyph e m ∧ idx e = idx c ∧ (∀ x ∈ s.ovr, x.index ≠ idx c) ∧
      glyph t c = keptMask m

/-- GLYPHQ puts the glyph, zero-extended, in RES0 and sets OK; nothing else changes; it is refused
outside READY (40_glyph_rom.md R74; the registers are decision D25). -/
def Obligations.GlyphQueryResult : Prop :=
  ∀ (s : State) (c : Byte),
    (s.phase = .ready → ∃ t, exec (.glyphq c) s = .next t ∧
      t = { s with res0 := t.res0, ok := true } ∧ t.res0.toNat = (glyph s c).toNat) ∧
    (s.phase ≠ .ready → exec (.glyphq c) s = .refused .notReady)

/-- DEFGLYPH appends (index, low 14 bits) for a character in '!'..'~' and completes with OK 1; any other
character is rejected with OK 0 and no other change (40_glyph_rom.md R75; the rejection is decision
D11). Nothing else changes, and it is refused outside READY. -/
def Obligations.DefineGlyphResult : Prop :=
  ∀ (s : State) (c : Byte) (m : BitVec 16),
    (s.phase = .ready → 0x21 ≤ c.toNat ∧ c.toNat ≤ 0x7E →
      ∃ mask : Mask14, mask.toNat = m.toNat % 0x4000 ∧
        exec (.defglyph c m) s =
          .next { s with ovr := s.ovr ++ [⟨c.toNat - 0x20, mask⟩], ok := true }) ∧
    (s.phase = .ready → ¬ (0x21 ≤ c.toNat ∧ c.toNat ≤ 0x7E) →
      exec (.defglyph c m) s = .next { s with ok := false }) ∧
    (s.phase ≠ .ready → exec (.defglyph c m) s = .refused .notReady)

/-- After an accepted DEFGLYPH every lookup sees it at once: the characters of its index get the mask if
no earlier override of the index exists, and every other glyph is as before (40_glyph_rom.md R72, R75,
20_memory.md R40; 90_conflicts.md C5). -/
def Obligations.DefinedGlyphIsSeenAtOnce : Prop :=
  ∀ (s : State) (c : Byte) (m : BitVec 16), s.phase = .ready → 0x21 ≤ c.toNat → c.toNat ≤ 0x7E →
    ∃ t, exec (.defglyph c m) s = .next t ∧
      ((∀ x ∈ s.ovr, x.index ≠ idx c) → ∀ e, idx e = idx c → glyph t e = keptMask m) ∧
      ((∃ x ∈ s.ovr, x.index = idx c) → ∀ e, glyph t e = glyph s e) ∧
      ∀ e, idx e ≠ idx c → glyph t e = glyph s e

/-- The override sequence and a 94-entry table with a valid bit per index, in which a write to a valid
entry is dropped, answer every lookup alike, and stay alike when an override is appended (10_state.md
R16). -/
def Obligations.OverrideTableIsEquivalent : Prop :=
  ∀ ovr : List Override, OverridesLegal ovr →
    (tableOf ovr).length = 94 ∧
    (∀ i, overrideOf ovr i = tableEntry (tableOf ovr) i) ∧
    ∀ e : Override, tableOf (ovr ++ [e]) = tableWrite (tableOf ovr) e

/-! ## The segment address decoder -/

/-- The row and the chip block of a segment and a digit: (d mod 4) + half, 0..3 for A..G and 4..7 for
H..N under the table of R86, never above 7; and 16 times the chip that owns the digit, 0 for 0..3, 16
for 4..7, 32 for 8..11, 48 for 12..15 (41_segment_address.md R87, R88). -/
def Obligations.SegmentRowAndChipBlock : Prop :=
  (∀ (cfg : Config) (g : Seg) (d : Nat),
    segRow cfg g d = d % 4 + halfOffset (segEntry cfg g).half ∧ segRow cfg g d ≤ 7) ∧
  (∀ (cfg : Config) (g : Seg) (d : Nat), cfg.comtab = comtabOfR86 →
    (g.val < 7 → segRow cfg g d ≤ 3) ∧ (7 ≤ g.val → 4 ≤ segRow cfg g d)) ∧
  (∀ d : Nat, chipBase d = (d / 4) * 16) ∧
  (∀ d : Nat, (d ≤ 3 → chipBase d = 0) ∧ (4 ≤ d ∧ d ≤ 7 → chipBase d = 16) ∧
    (8 ≤ d ∧ d ≤ 11 → chipBase d = 32) ∧ (12 ≤ d ∧ d ≤ 15 → chipBase d = 48))

/-- The source's steps with their branches on a row above 7 (R89) equal the reduced formula, because
no row is above 7: the offset in the chip block is even and at most 12, exactly one bit of a byte is
set, and for a digit of the chain the byte exists (41_segment_address.md R90).
(For d at or above NDIG, where R91 gives segaddr no meaning, this is the model's choice, log entry 16.) -/
def Obligations.SegmentAddressReducedForm : Prop :=
  ∀ (cfg : Config) (g : Seg) (d : Nat),
    (segaddr cfg g d).1 = 2 * (segEntry cfg g).common.val + 16 * (d / 4) ∧
    (∀ b < 8, (segaddr cfg g d).2.getLsbD b =
      decide (b = d % 4 + halfOffset (segEntry cfg g).half)) ∧
    (segaddr cfg g d).1 % 2 = 0 ∧ (segaddr cfg g d).1 % 16 ≤ 12 ∧
    (d < cfg.ndig → (segaddr cfg g d).1 < cfg.imgsz)

/-- No two segments of the chain share a RAM bit, for every COMTAB in which the segments of each half
have distinct commons (41_segment_address.md R90).
(For d at or above NDIG, where R91 gives segaddr no meaning, this is the model's choice, log entry 16.) -/
def Obligations.SegmentAddressesAreInjective : Prop :=
  ∀ cfg : Config, cfg.comtab.length = 14 → cfg.DistinctSegments →
    ∀ (g h : Seg) (d e : Nat), segaddr cfg g d = segaddr cfg h e → g = h ∧ d = e

/-- SEGQ puts the byte offset in RES0 and the bit mask in RES1 and sets OK, and changes nothing else; a
digit outside the chain faults with DigitRange; outside READY it is refused, before the digit is looked
at (41_segment_address.md R92, R91; decisions D19, D25). -/
def Obligations.SegmentQueryResult : Prop :=
  ∀ (s : State) (g : Seg) (d : Byte), s.cfg.Legal →
    (s.phase = .ready → d.toNat < s.cfg.ndig → ∃ t, exec (.segq g d) s = .next t ∧
      t = { s with res0 := t.res0, res1 := t.res1, ok := true } ∧
      t.res0.toNat = 2 * (segEntry s.cfg g).common.val + 16 * (d.toNat / 4) ∧
      ∀ b < 8, t.res1.getLsbD b =
        decide (b = d.toNat % 4 + halfOffset (segEntry s.cfg g).half)) ∧
    (s.phase = .ready → s.cfg.ndig ≤ d.toNat → exec (.segq g d) s = .fault .digitRange) ∧
    (s.phase ≠ .ready → exec (.segq g d) s = .refused .notReady)

/-! ## The display-RAM update engine -/

/-- `render(m, d)` sets the bit of every lit segment of m at digit d and changes no other bit of the
image nor anything else: no bit is cleared, every byte it addresses exists, the blank mask writes
nothing, and the mask 0x3FFF under the table of R86 sets bits r and r + 4 of the bytes at offsets 0, 2,
4, 6, 8, 10, 12 of the digit's chip block (42_buffer_update.md R103).
(For d at or above NDIG, where R91 gives segaddr no meaning, this is the model's choice, log entry 16.) -/
def Obligations.RenderSetsExactlyTheLitSegments : Prop :=
  ∀ (s : State) (m : Mask14) (d : Nat),
    render m d s = { s with img := (render m d s).img } ∧
    (∀ a b, b < 8 → ((memRead (render m d s) a).getLsbD b = true ↔
      (memRead s a).getLsbD b = true ∨ LitBit s.cfg m d a b)) ∧
    (d < s.cfg.ndig → ∀ a b, LitBit s.cfg m d a b → a < s.cfg.imgsz) ∧
    render 0x0000 d s = s ∧
    (s.cfg.comtab = comtabOfR86 → ∀ a b, b < 8 →
      (LitBit s.cfg 0x3FFF d a b ↔
        (∃ j < 7, a = 16 * (d / 4) + 2 * j) ∧ (b = d % 4 ∨ b = d % 4 + 4)))

/-- `status(c)` for '.' or ':' sets bit 0 of the byte at DEC_OFF or COL_OFF of the chip block that owns
the cursor, clears nothing, and changes no other byte nor anything else; while the cursor is inside the
chain every byte of that block exists (42_buffer_update.md R107; the two offsets are free values of the
configuration). -/
def Obligations.StatusSetsOneBit : Prop :=
  ∀ (s : State) (c : Byte), c = 0x2E ∨ c = 0x3A →
    status c s = { s with img := (status c s).img } ∧
    (∀ a, memRead (status c s) a =
      if a = 16 * (s.cursor / 4) + (if c = 0x2E then s.cfg.decOff.val else s.cfg.colOff.val)
      then memRead s a ||| 0x01 else memRead s a) ∧
    (s.cursor < s.cfg.ndig → 16 * (s.cursor / 4) + 15 < s.cfg.imgsz)

/-- `render(m, d)` makes the mask read back at digit d the union with m, and leaves every other digit's
as it was (42_buffer_update.md R110).
(For d at or above NDIG, where R91 gives segaddr no meaning, this is the model's choice, log entry 16.) -/
def Obligations.RenderedDigitMask : Prop :=
  ∀ (s : State) (m : Mask14) (d : Nat), s.cfg.comtab.length = 14 → s.cfg.DistinctSegments →
    digitmask (render m d s) d = digitmask s d ||| m ∧
    ∀ e, e ≠ d → digitmask (render m d s) e = digitmask s e

/-- WRCHAR of an ordinary character at a digit of the chain ORs the lit segments of its glyph into the
image and sets OK; every other bit of the image, the cursor, the shadow and all the rest stay, and
nothing is sent. At or above NDIG it faults with DigitRange (42_buffer_update.md R101, R100, R103;
decisions D7, D9, D19). -/
def Obligations.WriteOrdinaryCharacter : Prop :=
  ∀ (s : State) (c d : Byte), s.phase = .ready → isSpecial c = false →
    (d.toNat < s.cfg.ndig → ∃ t, exec (.wrchar c d) s = .next t ∧
      t = { s with img := t.img, ok := true } ∧
      ∀ a b, b < 8 → ((memRead t a).getLsbD b = true ↔
        (memRead s a).getLsbD b = true ∨ LitBit s.cfg (glyph s c) d.toNat a b)) ∧
    (s.cfg.ndig ≤ d.toNat → exec (.wrchar c d) s = .fault .digitRange)

/-- WRCHAR of '.' or ':' sets bit 0 of the decimal or colon byte of the chip that owns the cursor, for
every digit operand, and changes no other byte, not the cursor and not the shadow; nothing is sent
(42_buffer_update.md R107, R100, R101; decisions D6, D7, D8). -/
def Obligations.WriteSpecialCharacter : Prop :=
  ∀ (s : State) (c d : Byte), s.phase = .ready → s.cursor < s.cfg.ndig → isSpecial c = true →
    ∃ t, exec (.wrchar c d) s = .next t ∧
      t = { s with img := t.img, ok := true } ∧
      ∀ a, memRead t a =
        if a = 16 * (s.cursor / 4) + statusOffset s.cfg c then memRead s a ||| 0x01 else memRead s a

/-- Two ordinary characters written at one digit without a clear show the union of their glyphs over
what was there, no other digit changes, and writing the same character again changes nothing at all
(42_buffer_update.md R101, 70_reset_and_hazards.md R162).
(For the other digits f at or above NDIG, where R91 gives segaddr no meaning, this is the model's choice,
log entry 16.) -/
def Obligations.WritesAccumulate : Prop :=
  ∀ (s : State) (c e d : Byte), Invariants s → s.cfg.DistinctSegments → s.phase = .ready →
    isSpecial c = false → isSpecial e = false → d.toNat < s.cfg.ndig →
    ∃ t u, exec (.wrchar c d) s = .next t ∧ exec (.wrchar e d) t = .next u ∧
      digitmask u d.toNat = digitmask s d.toNat ||| glyph s c ||| glyph s e ∧
      (∀ f, f ≠ d.toNat → digitmask u f = digitmask s f) ∧
      exec (.wrchar c d) t = .next t

/-- CLEAR zeroes every byte of the image, homes the cursor and flushes the zeros; the shadow, the
overrides, the result registers and the phase stay; OK is the AND of the answers (42_buffer_update.md
R102, R106; the order of the chips is decision D14). Refused outside READY. -/
def Obligations.ClearResult : Prop :=
  ∀ s : State,
    (s.phase = .ready → ∃ t, exec .clear s = .next t ∧ FlushedFrom s t ∧
      t.cursor = 0 ∧ t.shadow = s.shadow ∧
      (∀ a < s.cfg.imgsz, t.img.lookup a = some 0x00 ∧ memRead t a = 0x00) ∧
      ∀ k < s.cfg.n, chipBlock t k = List.replicate 16 0x00) ∧
    (s.phase ≠ .ready → exec .clear s = .refused .notReady)

/-- FLUSH sends the image as it is, one event per chip in ascending order with that chip's sixteen
bytes and answer, whatever the answers; OK is their AND; image, cursor and shadow stay
(42_buffer_update.md R106, R109; the order is decision D14). Refused outside READY. -/
def Obligations.FlushResult : Prop :=
  ∀ s : State,
    (s.phase = .ready → ∃ t, exec .flush s = .next t ∧ FlushedFrom s t ∧
      t.img = s.img ∧ t.cursor = s.cursor ∧ t.shadow = s.shadow ∧
      t.trace.length = s.trace.length + s.cfg.n ∧
      (t.ok = true ↔ ∀ k < s.cfg.n, answerAt s k = true)) ∧
    (s.phase ≠ .ready → exec .flush s = .refused .notReady)

/-- WRBYTE of an ordinary character renders it at the cursor over what is there, advances the cursor
modulo NDIG and flushes; the shadow is not written (42_buffer_update.md R105, R100; decision D9). -/
def Obligations.WriteByteOrdinary : Prop :=
  ∀ (s : State) (c : Byte), s.phase = .ready → s.cursor < s.cfg.ndig → isSpecial c = false →
    ∃ t, exec (.wrbyte c) s = .next t ∧ FlushedFrom s t ∧
      t.cursor = (s.cursor + 1) % s.cfg.ndig ∧ t.shadow = s.shadow ∧
      ∀ a b, b < 8 → ((memRead t a).getLsbD b = true ↔
        (memRead s a).getLsbD b = true ∨ LitBit s.cfg (glyph s c) s.cursor a b)

/-- WRBYTE of '.' or ':' sets the status bit of the chip that owns the cursor, leaves the cursor where
it is and flushes (42_buffer_update.md R105, R107; decisions D6, D8, D9). -/
def Obligations.WriteByteSpecial : Prop :=
  ∀ (s : State) (c : Byte), s.phase = .ready → s.cursor < s.cfg.ndig → isSpecial c = true →
    ∃ t, exec (.wrbyte c) s = .next t ∧ FlushedFrom s t ∧
      t.cursor = s.cursor ∧ t.shadow = s.shadow ∧
      ∀ a, memRead t a =
        if a = 16 * (s.cursor / 4) + statusOffset s.cfg c then memRead s a ||| 0x01 else memRead s a

/-- WRSTREAM of any characters, of any length, special or not: the final image has exactly the bits its
characters light, each ordinary one at its position modulo NDIG and each special one in the status byte
of the chip that owns the next position; the cursor counts the ordinary ones; the shadow holds the last
ordinary character of each position visited and is unchanged elsewhere; and one flush sends the final
image (42_buffer_update.md R104, R108; decisions D6, D8, D14, D23). -/
def Obligations.StreamResult : Prop :=
  ∀ (s : State) (cs : List Byte), s.cfg.Legal → s.phase = .ready →
    ∃ t, exec (.wrstream cs) s = .next t ∧ FlushedFrom s t ∧
      t.cursor = (ordinaries cs).length % s.cfg.ndig ∧
      (∀ a b, a < s.cfg.imgsz → b < 8 → ((memRead t a).getLsbD b = true ↔
        ∃ pre c post, cs = pre ++ c :: post ∧
          if isSpecial c then
            a = 16 * ((ordinaries pre).length % s.cfg.ndig / 4) + statusOffset s.cfg c ∧ b = 0
          else LitBit s.cfg (glyph s c) ((ordinaries pre).length % s.cfg.ndig) a b)) ∧
      (∀ j < (ordinaries cs).length, (ordinaries cs).length ≤ j + s.cfg.ndig →
        t.shadow.lookup (j % s.cfg.ndig) = (ordinaries cs)[j]?) ∧
      ∀ i, (ordinaries cs).length ≤ i ∨ s.cfg.ndig ≤ i → t.shadow.lookup i = s.shadow.lookup i

/-- A text of at most NDIG ordinary characters lands one glyph per digit, and every digit after it is
blank (42_buffer_update.md R104, R110; 95_test_vectors.md S5). -/
def Obligations.StreamTextLandsOnItsDigits : Prop :=
  ∀ (s : State) (cs : List Byte), s.cfg.Legal → s.cfg.DistinctSegments → s.phase = .ready →
    (∀ c ∈ cs, isSpecial c = false) → cs.length ≤ s.cfg.ndig →
    ∃ t, exec (.wrstream cs) s = .next t ∧
      (∀ d c, cs[d]? = some c → digitmask t d = glyph s c ∧ t.shadow.lookup d = some c) ∧
      ∀ d, cs.length ≤ d → d < s.cfg.ndig → digitmask t d = 0

/-- The empty stream equals CLEAR (42_buffer_update.md R104), and outside READY both are refused. -/
def Obligations.EmptyStreamIsClear : Prop :=
  ∀ s : State, exec (.wrstream []) s = exec .clear s ∧
    (s.phase ≠ .ready → ∀ cs, exec (.wrstream cs) s = .refused .notReady)

/-- CLEAR, WRSTREAM and accepted shifts forget the image: two states that differ in the image alone
behave as one, so no unspecified byte survives them (10_state.md R22, 70_reset_and_hazards.md R161). -/
def Obligations.StreamsForgetTheImage : Prop :=
  ∀ (s : State) (m : Memory) (i : Instr), Invariants s → Invariants { s with img := m } →
    (i = .clear ∨ (∃ cs, i = .wrstream cs) ∨ (∃ n, i = .shl n ∧ n.toNat < s.cfg.ndig) ∨
      ∃ n, i = .shr n ∧ n.toNat < s.cfg.ndig) →
    exec i { s with img := m } = exec i s

/-! ## Shifts -/

/-- An accepted shift is the stream of a snapshot of the shadow: entry i of it is SHADOW[i + n] or a
space for SHL, SHADOW[i - n] or a space for SHR, NDIG entries in all (43_shift.md R120, R121, R122; the
snapshot is decision D13). -/
def Obligations.ShiftStreamsAShiftedSnapshot : Prop :=
  ∀ (s : State) (n : Byte), n.toNat < s.cfg.ndig →
    ∃ left right : List Byte, left.length = s.cfg.ndig ∧ right.length = s.cfg.ndig ∧
      (∀ i < s.cfg.ndig, left[i]? =
        some (if i + n.toNat < s.cfg.ndig then shadowRead s (i + n.toNat) else 0x20)) ∧
      (∀ i < s.cfg.ndig, right[i]? =
        some (if n.toNat ≤ i then shadowRead s (i - n.toNat) else 0x20)) ∧
      exec (.shl n) s = exec (.wrstream left) s ∧ exec (.shr n) s = exec (.wrstream right) s

/-- SHL n with n < NDIG on a shadow without special characters: the characters move n positions toward
position 0, spaces come in at the right, the cursor is home, every digit shows the glyph of its new
character and nothing else, and one flush sends it (43_shift.md R120, R121; decision D13). -/
def Obligations.ShiftLeftResult : Prop :=
  ∀ (s : State) (n : Byte), s.cfg.Legal → s.cfg.DistinctSegments → s.phase = .ready →
    n.toNat < s.cfg.ndig → (∀ i < s.cfg.ndig, isSpecial (shadowRead s i) = false) →
    ∃ t, exec (.shl n) s = .next t ∧ FlushedFrom s t ∧ t.cursor = 0 ∧
      (∀ i, i + n.toNat < s.cfg.ndig →
        t.shadow.lookup i = some (shadowRead s (i + n.toNat)) ∧
        digitmask t i = glyph s (shadowRead s (i + n.toNat))) ∧
      ∀ i, i < s.cfg.ndig → s.cfg.ndig ≤ i + n.toNat →
        t.shadow.lookup i = some 0x20 ∧ digitmask t i = glyph s 0x20

/-- SHR n with n < NDIG on a shadow without special characters: the mirror image of SHL (43_shift.md
R120, R122; decision D13). -/
def Obligations.ShiftRightResult : Prop :=
  ∀ (s : State) (n : Byte), s.cfg.Legal → s.cfg.DistinctSegments → s.phase = .ready →
    n.toNat < s.cfg.ndig → (∀ i < s.cfg.ndig, isSpecial (shadowRead s i) = false) →
    ∃ t, exec (.shr n) s = .next t ∧ FlushedFrom s t ∧ t.cursor = 0 ∧
      (∀ i, i < s.cfg.ndig → n.toNat ≤ i →
        t.shadow.lookup i = some (shadowRead s (i - n.toNat)) ∧
        digitmask t i = glyph s (shadowRead s (i - n.toNat))) ∧
      ∀ i, i < n.toNat →
        t.shadow.lookup i = some 0x20 ∧ digitmask t i = glyph s 0x20

/-- A shift by NDIG or more sets OK to 0 and does nothing else: no state change, no traffic; outside
READY a shift is refused before its amount is looked at (43_shift.md R123; decision D12). -/
def Obligations.LargeShiftIsRejected : Prop :=
  ∀ (s : State) (n : Byte),
    (s.phase = .ready → s.cfg.ndig ≤ n.toNat →
      exec (.shl n) s = .next { s with ok := false } ∧
      exec (.shr n) s = .next { s with ok := false }) ∧
    (s.phase ≠ .ready →
      exec (.shl n) s = .refused .notReady ∧ exec (.shr n) s = .refused .notReady)

/-! ## The chain and its answers -/

/-- INIT in UNINIT takes one answer of the environment: PHASE becomes READY or FAILED by it, OK is it,
TRACE records it, and nothing else changes; in any other phase it is refused (44_system.md R130;
decisions D17, D18). -/
def Obligations.InitResult : Prop :=
  ∀ s : State,
    (s.phase = .uninit → exec .init s = .next { s with
      phase := if answerAt s 0 then .ready else .failed
      ok := answerAt s 0
      trace := s.trace ++ [.initAttempt (answerAt s 0)]
      answers := s.answers.drop 1
      draws := s.draws + 1 }) ∧
    (s.phase ≠ .uninit → exec .init s = .refused .alreadyInitialised)

/-- Who talks to the chips: CLEAR, FLUSH, WRBYTE, WRSTREAM and accepted shifts flush once, in the image
they leave; WRCHAR, DEFGLYPH, the queries and rejected shifts send nothing and draw no answer, so what
they change is not displayed until a later flush (20_memory.md R38, R39, 70_reset_and_hazards.md R165;
decisions D7, D14). -/
def Obligations.OnlyFlushingCommandsReachTheChips : Prop :=
  ∀ i s t, exec i s = .next t → i ≠ .init →
    (flushes s.cfg i = true → FlushedFrom s t) ∧
    (flushes s.cfg i = false →
      t.trace = s.trace ∧ t.answers = s.answers ∧ t.draws = s.draws)

/-- Whatever command runs, the payload of every BusWrite it issues for chip k is the sixteen bytes
IMG[16*k .. 16*k+15] it leaves, in ascending order and unchanged; the image is changed by the commands of
the Display Buffer Manager alone; and a state that meets the invariants has no byte of the image at or
beyond 16 times the chain length (20_memory.md R30). -/
def Obligations.PayloadIsTheChipBlock : Prop :=
  (∀ i s t, exec i s = .next t →
    ∃ new, t.trace = s.trace ++ new ∧
      ∀ k addr data ack, .busWrite k addr data ack ∈ new →
        data.length = 16 ∧ ∀ j < 16, data[j]? = some (memRead t (16 * k + j))) ∧
  (∀ i s t, exec i s = .next t →
    (i = .init ∨ i = .flush ∨ (∃ c m, i = .defglyph c m) ∨ (∃ c, i = .glyphq c) ∨
      ∃ g d, i = .segq g d) → t.img = s.img) ∧
  (∀ s, Invariants s → ∀ a, 16 * s.cfg.n ≤ a → s.img.lookup a = none)

/-- After a flushing command chip k's display memory is the sixteen bytes of the final image where the
chip acknowledged, and unknown where it did not; chips outside the chain and the memories under a
command that does not flush are as before (10_state.md R20, 20_memory.md R38; decision D14). -/
def Obligations.ChipMemoryFollowsTheFlush : Prop :=
  ∀ i s t, exec i s = .next t → ∀ k,
    (flushes s.cfg i = true → k < s.cfg.n →
      chipMemory k t.trace = if answerAt s k then some (chipBlock t k) else none) ∧
    (flushes s.cfg i = false ∨ s.cfg.n ≤ k → chipMemory k t.trace = chipMemory k s.trace)

/-- The environment's answers reach OK, TRACE and (through INIT only) PHASE: for every other command
two states that differ in the coming answers alone end in states that differ in OK, TRACE and the
answers alone (20_memory.md R36; the answers are fields of the model, log entry 2). -/
def Obligations.AnswersReachOnlyOkAndTrace : Prop :=
  ∀ (i : Instr) (s t : State) (as : List Bool) (n : Nat), i ≠ .init → exec i s = .next t →
    ∃ u, exec i { s with answers := as, draws := n } = .next u ∧
      u = { t with ok := u.ok, trace := u.trace, answers := u.answers, draws := u.draws }

/-! ## Memory -/

/-- A byte written is read back, every other byte reads as before, and the canonical form is kept; two
canonical images that hold the same bytes are the same data (20_memory.md R37; the form is log entry
5). -/
def Obligations.MemoryLaws : Prop :=
  (∀ (a : Nat) (v : Byte) (s : State), memRead (memWrite a v s) a = v ∧
    (∀ b, b ≠ a → memRead (memWrite a v s) b = memRead s b) ∧
    (s.img.wf = true → (memWrite a v s).img.wf = true)) ∧
  (∀ m n : Memory, m.wf = true → n.wf = true → (∀ a, m.lookup a = n.lookup a) → m = n)

/-! ## Runs -/

/-- Runs. While no fault is marked, an advance runs the next command: of the bytes presented last while
any is left, the list staying as it is, and else the next item of the list, which is taken off it. Both
ways a completed command's state becomes the run's; a fault is marked for good; a refusal is marked and
nothing of the block changes. A command in bytes, whatever its outcome, loses exactly its own bytes, or,
refused where no length can be found, the rest of its presentation (that last case is the model's choice,
log entry 9), so the commands after it are still to come. A command presented as it is runs by exec,
presented bytes by step. No mark goes away; a run that has ended stays
as it is; every run ends or is stopped by a fault, within the number of bytes and items presented; and a
run is good when it has ended, no command faulted and none was refused (70_reset_and_hazards.md R174,
60_exceptions.md R142, R143, 30_encoding.md R56, R59; decisions D2, D17, D19, D20). -/
def Obligations.RunsKeepTheirMarks : Prop :=
  (∀ (r : RunState) (f : Fault) (k : Nat), r.fault = some f → r.run k = r) ∧
  (∀ (r : RunState) (p : Presentation) (ps : List Presentation), r.fault = none →
    r.state.input = [] → r.program = p :: ps →
    (∀ t, presentationOutcome p r.state = .next t →
      r.advance = { r with state := t, program := ps }) ∧
    (∀ f, presentationOutcome p r.state = .fault f →
      r.advance = { r with
        state := { r.state with input := bytesAfterCommand (presentedBytes p) }
        program := ps
        fault := some f }) ∧
    (∀ q, presentationOutcome p r.state = .refused q →
      r.advance = { r with
        state := { r.state with input := bytesAfterCommand (presentedBytes p) }
        program := ps
        refusals := r.refusals ++ [q] })) ∧
  (∀ r : RunState, r.fault = none → r.state.input ≠ [] →
    (∀ t, step r.state = .next t → r.advance = { r with state := t }) ∧
    (∀ f, step r.state = .fault f →
      r.advance = { r with
        state := { r.state with input := bytesAfterCommand r.state.input }
        fault := some f }) ∧
    (∀ q, step r.state = .refused q →
      r.advance = { r with
        state := { r.state with input := bytesAfterCommand r.state.input }
        refusals := r.refusals ++ [q] })) ∧
  (∀ bs : List Byte,
    (∀ n, commandLength bs = some n → bytesAfterCommand bs = bs.drop n) ∧
    (commandLength bs = none → bytesAfterCommand bs = [])) ∧
  (∀ s t : State, step s = .next t → t.input = bytesAfterCommand s.input) ∧
  (∀ (s : State) (i : Instr) (bs : List Byte),
    presentationOutcome (.command i) s = exec i s ∧ presentedBytes (.command i) = [] ∧
    presentationOutcome (.bytes bs) s = step { s with input := bs } ∧
    presentedBytes (.bytes bs) = bs) ∧
  (∀ (r : RunState) (j k : Nat), (r.run (j + k)).unmarked = true → (r.run j).unmarked = true) ∧
  (∀ (r : RunState) (k : Nat), r.ended = true → r.run k = r) ∧
  (∀ r : RunState, r.finish.ended = true ∨ ∃ f, r.finish.fault = some f) ∧
  ∀ r : RunState, r.good = true ↔
    r.program = [] ∧ r.state.input = [] ∧ r.fault = none ∧ r.refusals = []

/-- The operations of 44_system.md R131 and two commands presented at once are refused in every state
(60_exceptions.md R143, R151). -/
def Obligations.OperationsOutsideTheSetAreRefused : Prop :=
  ∀ s : State, (∀ op, boundaryOperation op s = .refused (.unmodelled op)) ∧
    ∀ i j, presentTogether i j s = .refused .concurrentCommands
end

