-- ==== Sys2Proof/Laws/State.lean ====
section
/-! SUPPORT. One lemma per field per update of the state: what is written, and what is left. -/

namespace Sys2Proof.Machine

@[simp] theorem setImg_cfg (m : Memory) (s : State) : (setImg m s).cfg = s.cfg := rfl
@[simp] theorem setImg_img (m : Memory) (s : State) : (setImg m s).img = m := rfl
@[simp] theorem setImg_cursor (m : Memory) (s : State) : (setImg m s).cursor = s.cursor := rfl
@[simp] theorem setImg_shadow (m : Memory) (s : State) : (setImg m s).shadow = s.shadow := rfl
@[simp] theorem setImg_ovr (m : Memory) (s : State) : (setImg m s).ovr = s.ovr := rfl
@[simp] theorem setImg_ok (m : Memory) (s : State) : (setImg m s).ok = s.ok := rfl
@[simp] theorem setImg_res0 (m : Memory) (s : State) : (setImg m s).res0 = s.res0 := rfl
@[simp] theorem setImg_res1 (m : Memory) (s : State) : (setImg m s).res1 = s.res1 := rfl
@[simp] theorem setImg_phase (m : Memory) (s : State) : (setImg m s).phase = s.phase := rfl
@[simp] theorem setImg_trace (m : Memory) (s : State) : (setImg m s).trace = s.trace := rfl
@[simp] theorem setImg_input (m : Memory) (s : State) : (setImg m s).input = s.input := rfl
@[simp] theorem setImg_answers (m : Memory) (s : State) : (setImg m s).answers = s.answers := rfl
@[simp] theorem setImg_draws (m : Memory) (s : State) : (setImg m s).draws = s.draws := rfl

@[simp] theorem setCursor_cfg (c : Nat) (s : State) : (setCursor c s).cfg = s.cfg := rfl
@[simp] theorem setCursor_img (c : Nat) (s : State) : (setCursor c s).img = s.img := rfl
@[simp] theorem setCursor_cursor (c : Nat) (s : State) : (setCursor c s).cursor = c := rfl
@[simp] theorem setCursor_shadow (c : Nat) (s : State) : (setCursor c s).shadow = s.shadow := rfl
@[simp] theorem setCursor_ovr (c : Nat) (s : State) : (setCursor c s).ovr = s.ovr := rfl
@[simp] theorem setCursor_ok (c : Nat) (s : State) : (setCursor c s).ok = s.ok := rfl
@[simp] theorem setCursor_res0 (c : Nat) (s : State) : (setCursor c s).res0 = s.res0 := rfl
@[simp] theorem setCursor_res1 (c : Nat) (s : State) : (setCursor c s).res1 = s.res1 := rfl
@[simp] theorem setCursor_phase (c : Nat) (s : State) : (setCursor c s).phase = s.phase := rfl
@[simp] theorem setCursor_trace (c : Nat) (s : State) : (setCursor c s).trace = s.trace := rfl
@[simp] theorem setCursor_input (c : Nat) (s : State) : (setCursor c s).input = s.input := rfl
@[simp] theorem setCursor_answers (c : Nat) (s : State) : (setCursor c s).answers = s.answers := rfl
@[simp] theorem setCursor_draws (c : Nat) (s : State) : (setCursor c s).draws = s.draws := rfl

@[simp] theorem setShadow_cfg (m : Memory) (s : State) : (setShadow m s).cfg = s.cfg := rfl
@[simp] theorem setShadow_img (m : Memory) (s : State) : (setShadow m s).img = s.img := rfl
@[simp] theorem setShadow_cursor (m : Memory) (s : State) : (setShadow m s).cursor = s.cursor := rfl
@[simp] theorem setShadow_shadow (m : Memory) (s : State) : (setShadow m s).shadow = m := rfl
@[simp] theorem setShadow_ovr (m : Memory) (s : State) : (setShadow m s).ovr = s.ovr := rfl
@[simp] theorem setShadow_ok (m : Memory) (s : State) : (setShadow m s).ok = s.ok := rfl
@[simp] theorem setShadow_res0 (m : Memory) (s : State) : (setShadow m s).res0 = s.res0 := rfl
@[simp] theorem setShadow_res1 (m : Memory) (s : State) : (setShadow m s).res1 = s.res1 := rfl
@[simp] theorem setShadow_phase (m : Memory) (s : State) : (setShadow m s).phase = s.phase := rfl
@[simp] theorem setShadow_trace (m : Memory) (s : State) : (setShadow m s).trace = s.trace := rfl
@[simp] theorem setShadow_input (m : Memory) (s : State) : (setShadow m s).input = s.input := rfl
@[simp] theorem setShadow_answers (m : Memory) (s : State) : (setShadow m s).answers = s.answers := rfl
@[simp] theorem setShadow_draws (m : Memory) (s : State) : (setShadow m s).draws = s.draws := rfl

@[simp] theorem setOvr_cfg (o : List Override) (s : State) : (setOvr o s).cfg = s.cfg := rfl
@[simp] theorem setOvr_img (o : List Override) (s : State) : (setOvr o s).img = s.img := rfl
@[simp] theorem setOvr_cursor (o : List Override) (s : State) : (setOvr o s).cursor = s.cursor := rfl
@[simp] theorem setOvr_shadow (o : List Override) (s : State) : (setOvr o s).shadow = s.shadow := rfl
@[simp] theorem setOvr_ovr (o : List Override) (s : State) : (setOvr o s).ovr = o := rfl
@[simp] theorem setOvr_ok (o : List Override) (s : State) : (setOvr o s).ok = s.ok := rfl
@[simp] theorem setOvr_res0 (o : List Override) (s : State) : (setOvr o s).res0 = s.res0 := rfl
@[simp] theorem setOvr_res1 (o : List Override) (s : State) : (setOvr o s).res1 = s.res1 := rfl
@[simp] theorem setOvr_phase (o : List Override) (s : State) : (setOvr o s).phase = s.phase := rfl
@[simp] theorem setOvr_trace (o : List Override) (s : State) : (setOvr o s).trace = s.trace := rfl
@[simp] theorem setOvr_input (o : List Override) (s : State) : (setOvr o s).input = s.input := rfl
@[simp] theorem setOvr_answers (o : List Override) (s : State) : (setOvr o s).answers = s.answers := rfl
@[simp] theorem setOvr_draws (o : List Override) (s : State) : (setOvr o s).draws = s.draws := rfl

@[simp] theorem setOk_cfg (b : Bool) (s : State) : (setOk b s).cfg = s.cfg := rfl
@[simp] theorem setOk_img (b : Bool) (s : State) : (setOk b s).img = s.img := rfl
@[simp] theorem setOk_cursor (b : Bool) (s : State) : (setOk b s).cursor = s.cursor := rfl
@[simp] theorem setOk_shadow (b : Bool) (s : State) : (setOk b s).shadow = s.shadow := rfl
@[simp] theorem setOk_ovr (b : Bool) (s : State) : (setOk b s).ovr = s.ovr := rfl
@[simp] theorem setOk_ok (b : Bool) (s : State) : (setOk b s).ok = b := rfl
@[simp] theorem setOk_res0 (b : Bool) (s : State) : (setOk b s).res0 = s.res0 := rfl
@[simp] theorem setOk_res1 (b : Bool) (s : State) : (setOk b s).res1 = s.res1 := rfl
@[simp] theorem setOk_phase (b : Bool) (s : State) : (setOk b s).phase = s.phase := rfl
@[simp] theorem setOk_trace (b : Bool) (s : State) : (setOk b s).trace = s.trace := rfl
@[simp] theorem setOk_input (b : Bool) (s : State) : (setOk b s).input = s.input := rfl
@[simp] theorem setOk_answers (b : Bool) (s : State) : (setOk b s).answers = s.answers := rfl
@[simp] theorem setOk_draws (b : Bool) (s : State) : (setOk b s).draws = s.draws := rfl

@[simp] theorem setRes0_cfg (r : BitVec 16) (s : State) : (setRes0 r s).cfg = s.cfg := rfl
@[simp] theorem setRes0_img (r : BitVec 16) (s : State) : (setRes0 r s).img = s.img := rfl
@[simp] theorem setRes0_cursor (r : BitVec 16) (s : State) : (setRes0 r s).cursor = s.cursor := rfl
@[simp] theorem setRes0_shadow (r : BitVec 16) (s : State) : (setRes0 r s).shadow = s.shadow := rfl
@[simp] theorem setRes0_ovr (r : BitVec 16) (s : State) : (setRes0 r s).ovr = s.ovr := rfl
@[simp] theorem setRes0_ok (r : BitVec 16) (s : State) : (setRes0 r s).ok = s.ok := rfl
@[simp] theorem setRes0_res0 (r : BitVec 16) (s : State) : (setRes0 r s).res0 = r := rfl
@[simp] theorem setRes0_res1 (r : BitVec 16) (s : State) : (setRes0 r s).res1 = s.res1 := rfl
@[simp] theorem setRes0_phase (r : BitVec 16) (s : State) : (setRes0 r s).phase = s.phase := rfl
@[simp] theorem setRes0_trace (r : BitVec 16) (s : State) : (setRes0 r s).trace = s.trace := rfl
@[simp] theorem setRes0_input (r : BitVec 16) (s : State) : (setRes0 r s).input = s.input := rfl
@[simp] theorem setRes0_answers (r : BitVec 16) (s : State) : (setRes0 r s).answers = s.answers := rfl
@[simp] theorem setRes0_draws (r : BitVec 16) (s : State) : (setRes0 r s).draws = s.draws := rfl

@[simp] theorem setRes1_cfg (r : BitVec 8) (s : State) : (setRes1 r s).cfg = s.cfg := rfl
@[simp] theorem setRes1_img (r : BitVec 8) (s : State) : (setRes1 r s).img = s.img := rfl
@[simp] theorem setRes1_cursor (r : BitVec 8) (s : State) : (setRes1 r s).cursor = s.cursor := rfl
@[simp] theorem setRes1_shadow (r : BitVec 8) (s : State) : (setRes1 r s).shadow = s.shadow := rfl
@[simp] theorem setRes1_ovr (r : BitVec 8) (s : State) : (setRes1 r s).ovr = s.ovr := rfl
@[simp] theorem setRes1_ok (r : BitVec 8) (s : State) : (setRes1 r s).ok = s.ok := rfl
@[simp] theorem setRes1_res0 (r : BitVec 8) (s : State) : (setRes1 r s).res0 = s.res0 := rfl
@[simp] theorem setRes1_res1 (r : BitVec 8) (s : State) : (setRes1 r s).res1 = r := rfl
@[simp] theorem setRes1_phase (r : BitVec 8) (s : State) : (setRes1 r s).phase = s.phase := rfl
@[simp] theorem setRes1_trace (r : BitVec 8) (s : State) : (setRes1 r s).trace = s.trace := rfl
@[simp] theorem setRes1_input (r : BitVec 8) (s : State) : (setRes1 r s).input = s.input := rfl
@[simp] theorem setRes1_answers (r : BitVec 8) (s : State) : (setRes1 r s).answers = s.answers := rfl
@[simp] theorem setRes1_draws (r : BitVec 8) (s : State) : (setRes1 r s).draws = s.draws := rfl

@[simp] theorem setPhase_cfg (p : Phase) (s : State) : (setPhase p s).cfg = s.cfg := rfl
@[simp] theorem setPhase_img (p : Phase) (s : State) : (setPhase p s).img = s.img := rfl
@[simp] theorem setPhase_cursor (p : Phase) (s : State) : (setPhase p s).cursor = s.cursor := rfl
@[simp] theorem setPhase_shadow (p : Phase) (s : State) : (setPhase p s).shadow = s.shadow := rfl
@[simp] theorem setPhase_ovr (p : Phase) (s : State) : (setPhase p s).ovr = s.ovr := rfl
@[simp] theorem setPhase_ok (p : Phase) (s : State) : (setPhase p s).ok = s.ok := rfl
@[simp] theorem setPhase_res0 (p : Phase) (s : State) : (setPhase p s).res0 = s.res0 := rfl
@[simp] theorem setPhase_res1 (p : Phase) (s : State) : (setPhase p s).res1 = s.res1 := rfl
@[simp] theorem setPhase_phase (p : Phase) (s : State) : (setPhase p s).phase = p := rfl
@[simp] theorem setPhase_trace (p : Phase) (s : State) : (setPhase p s).trace = s.trace := rfl
@[simp] theorem setPhase_input (p : Phase) (s : State) : (setPhase p s).input = s.input := rfl
@[simp] theorem setPhase_answers (p : Phase) (s : State) : (setPhase p s).answers = s.answers := rfl
@[simp] theorem setPhase_draws (p : Phase) (s : State) : (setPhase p s).draws = s.draws := rfl

@[simp] theorem setInput_cfg (bs : List Byte) (s : State) : (setInput bs s).cfg = s.cfg := rfl
@[simp] theorem setInput_img (bs : List Byte) (s : State) : (setInput bs s).img = s.img := rfl
@[simp] theorem setInput_cursor (bs : List Byte) (s : State) : (setInput bs s).cursor = s.cursor := rfl
@[simp] theorem setInput_shadow (bs : List Byte) (s : State) : (setInput bs s).shadow = s.shadow := rfl
@[simp] theorem setInput_ovr (bs : List Byte) (s : State) : (setInput bs s).ovr = s.ovr := rfl
@[simp] theorem setInput_ok (bs : List Byte) (s : State) : (setInput bs s).ok = s.ok := rfl
@[simp] theorem setInput_res0 (bs : List Byte) (s : State) : (setInput bs s).res0 = s.res0 := rfl
@[simp] theorem setInput_res1 (bs : List Byte) (s : State) : (setInput bs s).res1 = s.res1 := rfl
@[simp] theorem setInput_phase (bs : List Byte) (s : State) : (setInput bs s).phase = s.phase := rfl
@[simp] theorem setInput_trace (bs : List Byte) (s : State) : (setInput bs s).trace = s.trace := rfl
@[simp] theorem setInput_input (bs : List Byte) (s : State) : (setInput bs s).input = bs := rfl
@[simp] theorem setInput_answers (bs : List Byte) (s : State) : (setInput bs s).answers = s.answers := rfl
@[simp] theorem setInput_draws (bs : List Byte) (s : State) : (setInput bs s).draws = s.draws := rfl

@[simp] theorem logEvent_cfg (e : Event) (s : State) : (logEvent e s).cfg = s.cfg := rfl
@[simp] theorem logEvent_img (e : Event) (s : State) : (logEvent e s).img = s.img := rfl
@[simp] theorem logEvent_cursor (e : Event) (s : State) : (logEvent e s).cursor = s.cursor := rfl
@[simp] theorem logEvent_shadow (e : Event) (s : State) : (logEvent e s).shadow = s.shadow := rfl
@[simp] theorem logEvent_ovr (e : Event) (s : State) : (logEvent e s).ovr = s.ovr := rfl
@[simp] theorem logEvent_ok (e : Event) (s : State) : (logEvent e s).ok = s.ok := rfl
@[simp] theorem logEvent_res0 (e : Event) (s : State) : (logEvent e s).res0 = s.res0 := rfl
@[simp] theorem logEvent_res1 (e : Event) (s : State) : (logEvent e s).res1 = s.res1 := rfl
@[simp] theorem logEvent_phase (e : Event) (s : State) : (logEvent e s).phase = s.phase := rfl
@[simp] theorem logEvent_trace (e : Event) (s : State) : (logEvent e s).trace = s.trace ++ [e] := rfl
@[simp] theorem logEvent_input (e : Event) (s : State) : (logEvent e s).input = s.input := rfl
@[simp] theorem logEvent_answers (e : Event) (s : State) : (logEvent e s).answers = s.answers := rfl
@[simp] theorem logEvent_draws (e : Event) (s : State) : (logEvent e s).draws = s.draws := rfl

@[simp] theorem answerDrawn_cfg (s : State) : (answerDrawn s).cfg = s.cfg := rfl
@[simp] theorem answerDrawn_img (s : State) : (answerDrawn s).img = s.img := rfl
@[simp] theorem answerDrawn_cursor (s : State) : (answerDrawn s).cursor = s.cursor := rfl
@[simp] theorem answerDrawn_shadow (s : State) : (answerDrawn s).shadow = s.shadow := rfl
@[simp] theorem answerDrawn_ovr (s : State) : (answerDrawn s).ovr = s.ovr := rfl
@[simp] theorem answerDrawn_ok (s : State) : (answerDrawn s).ok = s.ok := rfl
@[simp] theorem answerDrawn_res0 (s : State) : (answerDrawn s).res0 = s.res0 := rfl
@[simp] theorem answerDrawn_res1 (s : State) : (answerDrawn s).res1 = s.res1 := rfl
@[simp] theorem answerDrawn_phase (s : State) : (answerDrawn s).phase = s.phase := rfl
@[simp] theorem answerDrawn_trace (s : State) : (answerDrawn s).trace = s.trace := rfl
@[simp] theorem answerDrawn_input (s : State) : (answerDrawn s).input = s.input := rfl
@[simp] theorem answerDrawn_answers (s : State) : (answerDrawn s).answers = s.answers.tail := rfl
@[simp] theorem answerDrawn_draws (s : State) : (answerDrawn s).draws = s.draws + 1 := rfl

end Sys2Proof.Machine
end

