-- ==== Sys2Proof/Laws/Memory.lean ====
section
/-! SUPPORT. The laws of byte stores: read after write, the canonical form, and what the composed image
operations read as. -/

namespace Sys2Proof.Machine

theorem Memory.lookup_write (a b : Nat) (v : Byte) (m : Memory) :
    (m.write a v).lookup b = if b = a then some v else m.lookup b := by
  induction m with
  | nil => simp [Memory.write, Memory.lookup, eq_comm]
  | cons c m ih =>
    obtain ⟨k, w⟩ := c
    unfold Memory.write
    by_cases hb : b = a
    · subst hb
      rw [if_pos rfl] at ih ⊢
      split_ifs with h1 h2
      · simp [Memory.lookup]
      · simp [Memory.lookup]
      · simpa [Memory.lookup, Ne.symm h2] using ih
    · have hba : a ≠ b := Ne.symm hb
      simp only [if_neg hb] at ih ⊢
      split_ifs with h1 h2
      · simp [Memory.lookup, hba]
      · subst h2
        simp [Memory.lookup, hba]
      · simp [Memory.lookup, ih]

theorem Memory.wf_cons (c : Host.Cell) (m : Memory) :
    Memory.wf (c :: m) = true ↔ (∀ d ∈ m, c.1 < d.1) ∧ Memory.wf m = true := by
  simp [Memory.wf]

theorem Memory.mem_write {a : Nat} {v : Byte} {m : Memory} {c : Host.Cell}
    (h : c ∈ m.write a v) : c = (a, v) ∨ c ∈ m := by
  induction m with
  | nil => simpa [Memory.write] using h
  | cons d m ih =>
    obtain ⟨k, w⟩ := d
    unfold Memory.write at h
    split_ifs at h <;> simp only [List.mem_cons] at h ⊢ <;> tauto

theorem Memory.wf_write (a : Nat) (v : Byte) {m : Memory} (h : m.wf = true) :
    (m.write a v).wf = true := by
  induction m with
  | nil => simp [Memory.write, Memory.wf]
  | cons d m ih =>
    obtain ⟨k, w⟩ := d
    obtain ⟨hk, hm⟩ := (Memory.wf_cons _ _).1 h
    unfold Memory.write
    split_ifs with h1 h2
    · refine (Memory.wf_cons _ _).2 ⟨?_, h⟩
      intro d hd
      rcases List.mem_cons.1 hd with rfl | hd
      · exact h1
      · exact lt_trans h1 (hk d hd)
    · subst h2
      exact (Memory.wf_cons _ _).2 ⟨hk, hm⟩
    · refine (Memory.wf_cons _ _).2 ⟨?_, ih hm⟩
      intro d hd
      rcases Memory.mem_write hd with rfl | hd
      · simp only; omega
      · exact hk d hd

theorem Memory.within_iff {size : Nat} {m : Memory} :
    m.within size = true ↔ ∀ c ∈ m, c.1 < size := by
  simp [Memory.within]

theorem Memory.within_write {size a : Nat} (v : Byte) {m : Memory} (ha : a < size)
    (h : m.within size = true) : (m.write a v).within size = true := by
  rw [Memory.within_iff] at *
  intro c hc
  rcases Memory.mem_write hc with rfl | hc
  · exact ha
  · exact h c hc

theorem Memory.lookup_eq_none_of_lt {a : Nat} {m : Memory} (h : ∀ c ∈ m, a < c.1) :
    m.lookup a = none := by
  induction m with
  | nil => rfl
  | cons d m ih =>
    have hd := h d (by simp)
    unfold Memory.lookup
    rw [if_neg (by omega), ih (fun c hc => h c (by simp [hc]))]

theorem Memory.lookup_eq_none_of_within {size a : Nat} {m : Memory} (h : m.within size = true)
    (ha : size ≤ a) : m.lookup a = none := by
  rw [Memory.within_iff] at h
  induction m with
  | nil => rfl
  | cons d m ih =>
    have hd := h d (by simp)
    unfold Memory.lookup
    rw [if_neg (by omega), ih (fun c hc => h c (by simp [hc]))]

/-- Equal memories are equal data: two canonical stores that read the same are the same list. -/
theorem Memory.ext_lookup {m n : Memory} (hm : m.wf = true) (hn : n.wf = true)
    (h : ∀ a, m.lookup a = n.lookup a) : m = n := by
  induction m generalizing n with
  | nil =>
    cases n with
    | nil => rfl
    | cons d n => simpa [Memory.lookup] using h d.1
  | cons c m ih =>
    obtain ⟨a, v⟩ := c
    obtain ⟨hc, hm'⟩ := (Memory.wf_cons _ _).1 hm
    cases n with
    | nil => simpa [Memory.lookup] using h a
    | cons d n =>
      obtain ⟨b, w⟩ := d
      obtain ⟨hd, hn'⟩ := (Memory.wf_cons _ _).1 hn
      have hab : a = b := by
        rcases Nat.lt_trichotomy a b with hlt | heq | hgt
        · have := h a
          rw [Memory.lookup_eq_none_of_lt (m := (b, w) :: n)] at this
          · simp [Memory.lookup] at this
          · intro c hc'
            rcases List.mem_cons.1 hc' with rfl | hc'
            · exact hlt
            · exact lt_trans hlt (hd c hc')
        · exact heq
        · have := h b
          rw [Memory.lookup_eq_none_of_lt (m := (a, v) :: m)] at this
          · simp [Memory.lookup] at this
          · intro c hc'
            rcases List.mem_cons.1 hc' with rfl | hc'
            · exact hgt
            · exact lt_trans hgt (hc c hc')
      subst hab
      have hv : v = w := by simpa [Memory.lookup] using h a
      subst hv
      congr 1
      refine ih hm' hn' (fun x => ?_)
      by_cases hx : x = a
      · subst hx
        rw [Memory.lookup_eq_none_of_lt hc, Memory.lookup_eq_none_of_lt hd]
      · simpa [Memory.lookup, Ne.symm hx] using h x

theorem readImage_write (a b : Nat) (v : Byte) (m : Memory) :
    readImage (m.write a v) b = if b = a then v else readImage m b := by
  unfold readImage
  rw [Memory.lookup_write]
  split_ifs <;> rfl

theorem readImage_orImage (a b : Nat) (v : Byte) (m : Memory) :
    readImage (orImage a v m) b = if b = a then readImage m b ||| v else readImage m b := by
  unfold orImage
  rw [readImage_write]
  split_ifs with h
  · rw [h]
  · rfl

/-! Folds of writes: the zeroing of the image. -/

theorem lookup_foldl_zero (l : List Nat) (m : Memory) (b : Nat) :
    (l.foldl (fun m a => m.write a (0x00 : Byte)) m).lookup b =
      if b ∈ l then some 0x00 else m.lookup b := by
  induction l generalizing m with
  | nil => simp
  | cons a l ih =>
    simp only [List.foldl_cons, ih, Memory.lookup_write, List.mem_cons]
    split_ifs <;> simp_all

theorem lookup_zeroBelow (size : Nat) (m : Memory) (b : Nat) :
    (zeroBelow size m).lookup b = if b < size then some 0x00 else m.lookup b := by
  rw [zeroBelow, lookup_foldl_zero]
  simp only [List.mem_range]

theorem readImage_zeroBelow (size : Nat) (m : Memory) (b : Nat) :
    readImage (zeroBelow size m) b = if b < size then 0x00 else readImage m b := by
  unfold readImage
  rw [lookup_zeroBelow]
  split_ifs <;> rfl

/-- A canonical form kept by every write of a fold is kept by the fold. -/
theorem foldl_keeps {α β : Type} (P : β → Prop) (f : β → α → β) (l : List α) (m : β)
    (hf : ∀ m, ∀ a ∈ l, P m → P (f m a)) (h : P m) : P (l.foldl f m) := by
  induction l generalizing m with
  | nil => exact h
  | cons a l ih =>
    exact ih (f m a) (fun m b hb => hf m b (by simp [hb])) (hf m a (by simp) h)

theorem wf_zeroBelow (size : Nat) {m : Memory} (h : m.wf = true) :
    (zeroBelow size m).wf = true :=
  foldl_keeps (fun m : Memory => m.wf = true) _ _ _ (fun _ a _ h => Memory.wf_write a 0 h) h

theorem within_zeroBelow {size : Nat} {m : Memory} (h : m.within size = true) :
    (zeroBelow size m).within size = true :=
  foldl_keeps (fun m : Memory => m.within size = true) _ _ _
    (fun _ _ ha h => Memory.within_write 0 (List.mem_range.1 ha) h) h

/-- The zeroed image does not remember what it held: canonical images of the same size zero to one
list. -/
theorem zeroBelow_eq {size : Nat} {m n : Memory} (hm : m.wf = true) (hn : n.wf = true)
    (hm' : m.within size = true) (hn' : n.within size = true) :
    zeroBelow size m = zeroBelow size n := by
  refine Memory.ext_lookup (wf_zeroBelow size hm) (wf_zeroBelow size hn) (fun a => ?_)
  rw [lookup_zeroBelow, lookup_zeroBelow]
  split_ifs with h
  · rfl
  · rw [Memory.lookup_eq_none_of_within hm' (by omega),
      Memory.lookup_eq_none_of_within hn' (by omega)]

/-! Segment addresses. -/

theorem segRow_le (cfg : Config) (g : Seg) (d : Nat) : segRow cfg g d ≤ 7 := by
  unfold segRow
  cases (segEntry cfg g).half <;> simp [halfOffset] <;> omega

/-- The reduced form of R90: the branches on a row above 7 are never taken. -/
theorem segaddr_eq (cfg : Config) (g : Seg) (d : Nat) :
    segaddr cfg g d =
      ((segEntry cfg g).common.val * 2 + d / 4 * 16, 1#8 <<< segRow cfg g d) := by
  have := segRow_le cfg g d
  simp [segaddr, chipBase, show ¬ 7 < segRow cfg g d by omega]

theorem segaddr_fst_lt {cfg : Config} (g : Seg) {d : Nat} (h : d < cfg.ndig) :
    (segaddr cfg g d).1 < cfg.imgsz := by
  rw [segaddr_eq]
  have := (segEntry cfg g).common.isLt
  simp only [Config.ndig, Config.imgsz] at *
  omega

theorem getLsbD_one_shiftLeft (r b : Nat) (hb : b < 8) :
    (1#8 <<< r).getLsbD b = decide (b = r) := by
  simp only [BitVec.getLsbD_shiftLeft, BitVec.getLsbD_one, hb]
  by_cases h : b = r
  · subst h; simp
  · by_cases h2 : b < r
    · simp [h, h2]
    · simp [h, h2]; omega

theorem one_shiftLeft_inj {r q : Nat} (hr : r ≤ 7) (hq : q ≤ 7) :
    (1#8 <<< r) = (1#8 <<< q) ↔ r = q := by
  constructor
  · intro h
    have := congrArg (fun v : BitVec 8 => v.getLsbD r) h
    simp only [getLsbD_one_shiftLeft _ _ (show r < 8 by omega)] at this
    simpa using this
  · rintro rfl; rfl

/-! Rendering. -/

theorem renderImage_wf (cfg : Config) (m : Mask14) (d : Nat) {img : Memory} (h : img.wf = true) :
    (renderImage cfg m d img).wf = true := by
  refine foldl_keeps (fun m : Memory => m.wf = true) _ _ _ (fun img g _ h => ?_) h
  split_ifs
  · exact Memory.wf_write _ _ h
  · exact h

theorem renderImage_within {cfg : Config} (m : Mask14) {d : Nat} (hd : d < cfg.ndig) {img : Memory}
    (h : img.within cfg.imgsz = true) : (renderImage cfg m d img).within cfg.imgsz = true := by
  refine foldl_keeps (fun m : Memory => m.within cfg.imgsz = true) _ _ _ (fun img g _ h => ?_) h
  split_ifs
  · exact Memory.within_write _ (segaddr_fst_lt g hd) h
  · exact h

/-- What an image reads as after OR-ing in the bits of some segments. -/
theorem readImage_orSegments (cfg : Config) (m : Mask14) (d : Nat) (l : List Seg) (img : Memory)
    (a b : Nat) (hb : b < 8) :
    (readImage (l.foldl (fun img g =>
      if m.getLsbD g.val then orImage (segaddr cfg g d).1 (segaddr cfg g d).2 img else img) img) a).getLsbD b
        = true ↔
      (readImage img a).getLsbD b = true ∨
        ∃ g ∈ l, m.getLsbD g.val = true ∧ segaddr cfg g d = (a, 1#8 <<< b) := by
  induction l generalizing img with
  | nil => simp
  | cons g l ih =>
    rw [List.foldl_cons, ih]
    by_cases hg : m.getLsbD g.val = true
    · have hrow := segRow_le cfg g d
      have key : (readImage (orImage (segaddr cfg g d).1 (segaddr cfg g d).2 img) a).getLsbD b = true ↔
          (readImage img a).getLsbD b = true ∨ segaddr cfg g d = (a, 1#8 <<< b) := by
        rw [readImage_orImage, segaddr_eq]
        simp only [Prod.mk.injEq, one_shiftLeft_inj hrow (show b ≤ 7 by omega)]
        split_ifs with h
        · rw [BitVec.getLsbD_or, getLsbD_one_shiftLeft _ _ hb]
          simp [h, eq_comm (a := b)]
        · have h' : ¬ (segEntry cfg g).common.val * 2 + d / 4 * 16 = a := fun e => h e.symm
          simp [h']
      simp only [hg, if_true, key, List.mem_cons, exists_eq_or_imp, true_and, or_assoc]
    · simp only [hg, if_false, List.mem_cons, exists_eq_or_imp, false_and, false_or, Bool.false_eq_true]

/-- One lemma for `render` (R103): a bit reads 1 afterwards exactly when it did before or a lit segment
of the digit addresses it. -/
theorem readImage_renderImage (cfg : Config) (m : Mask14) (d : Nat) (img : Memory) (a b : Nat)
    (hb : b < 8) :
    (readImage (renderImage cfg m d img) a).getLsbD b = true ↔
      (readImage img a).getLsbD b = true ∨
        ∃ g : Seg, m.getLsbD g.val = true ∧ segaddr cfg g d = (a, 1#8 <<< b) := by
  unfold renderImage allSegments
  rw [readImage_orSegments _ _ _ _ _ _ _ hb]
  simp

end Sys2Proof.Machine
end

