-- ==== Sys2Proof/Laws/Transport.lean ====
section
/-! SUPPORT. What one flush does: the closed form of its loop. -/

namespace Sys2Proof.Machine

theorem nextAnswer_eq (s : State) : nextAnswer s = answerAt s 0 := by
  unfold nextAnswer answerAt
  cases s.answers <;> rfl

theorem answerAt_drawn {s t : State} (ha : t.answers = s.answers.tail) (hd : t.draws = s.draws + 1)
    (j : Nat) : answerAt t j = answerAt s (j + 1) := by
  unfold answerAt
  rw [ha, hd, Nat.add_assoc, Nat.add_comm 1 j]
  cases s.answers <;> simp

theorem answerAt_congr {s t : State} (ha : t.answers = s.answers) (hd : t.draws = s.draws) :
    answerAt t = answerAt s := by
  funext j
  simp only [answerAt, ha, hd]

theorem chipBlock_congr {s t : State} (h : t.img = s.img) : chipBlock t = chipBlock s := by
  funext k
  simp only [chipBlock, memRead, h]

theorem chipAddress_congr {s t : State} (h : t.cfg = s.cfg) : chipAddress t = chipAddress s := by
  funext k
  simp only [chipAddress, h]

@[simp] theorem chipBlock_length (s : State) (k : Nat) : (chipBlock s k).length = 16 := by
  simp [chipBlock]

@[simp] theorem flushEvents_length (s t : State) : (flushEvents s t).length = s.cfg.n := by
  simp [flushEvents]

theorem flushEvents_congr (s : State) {t u : State} (h : t.img = u.img) :
    flushEvents s t = flushEvents s u := by
  simp only [flushEvents, chipBlock_congr h]

/-- The loop of `flush()` in closed form: the j-th chip still to be written gets the j-th coming
answer. -/
theorem flushChips_eq (ks : List Nat) (r : Bool) (s : State) :
    flushChips ks r s =
      (r && (List.range ks.length).all (answerAt s),
        { s with
          trace := s.trace ++ ks.zipIdx.map (fun p =>
            .busWrite p.1 (chipAddress s p.1) (chipBlock s p.1) (answerAt s p.2))
          answers := s.answers.drop ks.length
          draws := s.draws + ks.length }) := by
  induction ks generalizing r s with
  | nil => simp [flushChips]
  | cons k ks ih =>
    have hans : answerAt (busWrite k (chipBlock s k) s) = fun j => answerAt s (j + 1) :=
      funext (answerAt_drawn rfl rfl)
    have hblk : chipBlock (busWrite k (chipBlock s k) s) = chipBlock s := chipBlock_congr rfl
    have hadr : chipAddress (busWrite k (chipBlock s k) s) = chipAddress s := chipAddress_congr rfl
    rw [flushChips, ih, hans, hblk, hadr]
    refine Prod.ext ?_ ?_
    · simp only [List.length_cons, List.range_succ_eq_map, List.all_cons, List.all_map, nextAnswer_eq,
        Bool.and_assoc]
      rfl
    · have htail : s.answers.tail.drop ks.length = s.answers.drop (ks.length + 1) := by
        rw [← List.drop_one, List.drop_drop, Nat.add_comm]
      simp only [busWrite, logEvent, answerDrawn, htail, List.length_cons, List.zipIdx_cons,
        List.map_cons, Nat.zero_add, nextAnswer_eq, List.append_assoc, List.singleton_append]
      rw [List.zipIdx_succ, List.map_map, Nat.add_assoc, Nat.add_comm 1 ks.length]
      rfl

theorem zipIdx_range (n : Nat) : (List.range n).zipIdx = (List.range n).map (fun k => (k, k)) := by
  apply List.ext_getElem <;> simp

/-- Everything a flush does (42_buffer_update.md R106). -/
theorem flush_eq (s : State) :
    flush s = (flushOk s,
      { s with
        trace := s.trace ++ flushEvents s s
        answers := s.answers.drop s.cfg.n
        draws := s.draws + s.cfg.n }) := by
  unfold flush
  rw [flushChips_eq, zipIdx_range, List.map_map]
  simp [flushOk, flushEvents, Function.comp_def]

/-- `u` is `s` but for its image, cursor and shadow. -/
def DisplayFrom (s u : State) : Prop :=
  u = { s with img := u.img, cursor := u.cursor, shadow := u.shadow }

theorem DisplayFrom.refl (s : State) : DisplayFrom s s := rfl

theorem DisplayFrom.trans {s t u : State} (h1 : DisplayFrom s t) (h2 : DisplayFrom t u) :
    DisplayFrom s u := by
  unfold DisplayFrom at *
  rw [h2, h1]

/-- A command that changes the display part and then completes with a flush is `FlushedFrom`. -/
theorem flushedFrom_completeWithFlush {s u : State} (h : DisplayFrom s u) :
    FlushedFrom s (completeWithFlush u) := by
  unfold FlushedFrom completeWithFlush
  rw [flush_eq]
  have ha : answerAt u = answerAt s := by rw [h]; exact answerAt_congr rfl rfl
  have hc : u.cfg = s.cfg := by rw [h]
  have hadr : chipAddress u = chipAddress s := chipAddress_congr hc
  have hev : flushEvents u u = flushEvents s u := by simp only [flushEvents, hc, ha, hadr]
  have hok : flushOk u = flushOk s := by simp only [flushOk, hc, ha]
  have hev' := flushEvents_congr s (t := setOk (flushOk u)
      { u with trace := u.trace ++ flushEvents u u, answers := u.answers.drop u.cfg.n,
               draws := u.draws + u.cfg.n }) (u := u) rfl
  rw [hev', hev, hok, hc]
  unfold DisplayFrom at h
  rw [h]
  rfl

@[simp] theorem completeWithFlush_img (u : State) : (completeWithFlush u).img = u.img := by
  simp [completeWithFlush, flush_eq]
@[simp] theorem completeWithFlush_cursor (u : State) :
    (completeWithFlush u).cursor = u.cursor := by
  simp [completeWithFlush, flush_eq]
@[simp] theorem completeWithFlush_shadow (u : State) :
    (completeWithFlush u).shadow = u.shadow := by
  simp [completeWithFlush, flush_eq]
@[simp] theorem completeWithFlush_cfg (u : State) : (completeWithFlush u).cfg = u.cfg := by
  simp [completeWithFlush, flush_eq]
@[simp] theorem completeWithFlush_ovr (u : State) : (completeWithFlush u).ovr = u.ovr := by
  simp [completeWithFlush, flush_eq]

end Sys2Proof.Machine
end

