-- ==== Sys2Proof/Laws/Procedures.lean ====
section
/-! SUPPORT. What `put` and `stream` can do, said once. -/

namespace Sys2Proof.Machine

/-- Everything `put` can do (42_buffer_update.md R100): a successful put changes the image alone. -/
theorem put_ok {c : Byte} {d : Nat} {s t : State} :
    put c d s = .ok t ↔
      (isSpecial c = true ∧ s.cursor < s.cfg.ndig ∧ t = status c s) ∨
      (isSpecial c = false ∧ d < s.cfg.ndig ∧ t = render (glyph s c) d s) := by
  unfold put digitInChain
  cases isSpecial c <;> by_cases h1 : s.cursor < s.cfg.ndig <;> by_cases h2 : d < s.cfg.ndig <;>
    simp [h1, h2, eq_comm]

theorem put_error {c : Byte} {d : Nat} {s : State} {f : Fault} :
    put c d s = .error f ↔
      (isSpecial c = true ∧ s.cfg.ndig ≤ s.cursor ∧ f = .imageRange) ∨
      (isSpecial c = false ∧ s.cfg.ndig ≤ d ∧ f = .digitRange) := by
  unfold put digitInChain
  cases isSpecial c <;> by_cases h1 : s.cursor < s.cfg.ndig <;> by_cases h2 : d < s.cfg.ndig <;>
    simp [h1, h2, eq_comm] <;> omega

theorem put_eq_setImg {c : Byte} {d : Nat} {s t : State} (h : put c d s = .ok t) :
    t = setImg t.img s := by
  rcases put_ok.1 h with ⟨-, -, rfl⟩ | ⟨-, -, rfl⟩ <;> rfl

/-- A put at a digit of the chain with the cursor inside the chain never faults. -/
theorem put_completes (c : Byte) {d : Nat} {s : State} (hc : s.cursor < s.cfg.ndig)
    (hd : d < s.cfg.ndig) : ∃ t, put c d s = .ok t := by
  cases h : isSpecial c
  · exact ⟨_, put_ok.2 (.inr ⟨h, hd, rfl⟩)⟩
  · exact ⟨_, put_ok.2 (.inl ⟨h, hc, rfl⟩)⟩

/-- A put never clears a bit (20_memory.md R35). -/
theorem put_sets_only {c : Byte} {d : Nat} {s t : State} (h : put c d s = .ok t) (a b : Nat)
    (hb : b < 8) (hbit : (memRead s a).getLsbD b = true) : (memRead t a).getLsbD b = true := by
  rcases put_ok.1 h with ⟨-, -, rfl⟩ | ⟨-, -, rfl⟩
  · show (readImage (orImage _ _ s.img) a).getLsbD b = true
    rw [readImage_orImage]
    split_ifs
    · rw [BitVec.getLsbD_or, show (readImage s.img a).getLsbD b = true from hbit, Bool.true_or]
    · exact hbit
  · exact (readImage_renderImage _ _ _ _ _ _ hb).2 (.inl hbit)

theorem statusAddress_lt (c : Byte) {s : State} (h : s.cursor < s.cfg.ndig) :
    statusAddress c s < s.cfg.imgsz := by
  have h1 := s.cfg.decOff.isLt
  have h2 := s.cfg.colOff.isLt
  simp only [Config.ndig, Config.imgsz] at *
  unfold statusAddress
  split_ifs <;> omega

theorem put_wf {c : Byte} {d : Nat} {s t : State} (h : put c d s = .ok t) (hw : s.img.wf = true) :
    t.img.wf = true := by
  rcases put_ok.1 h with ⟨-, -, rfl⟩ | ⟨-, -, rfl⟩
  · exact Memory.wf_write _ _ hw
  · exact renderImage_wf _ _ _ hw

theorem put_within {c : Byte} {d : Nat} {s t : State} (h : put c d s = .ok t)
    (hw : s.img.within s.cfg.imgsz = true) : t.img.within s.cfg.imgsz = true := by
  rcases put_ok.1 h with ⟨-, hc, rfl⟩ | ⟨-, hd, rfl⟩
  · exact Memory.within_write _ (statusAddress_lt c hc) hw
  · exact renderImage_within _ hd hw

/-! One character of a stream. -/

/-- The cursor stays inside the chain when it advances. -/
theorem advance_lt {n c : Nat} (h : c < n) : (c + 1) % n < n := Nat.mod_lt _ (by omega)

theorem recordAndAdvance_special {c : Byte} (s : State) (h : isSpecial c = true) :
    recordAndAdvance c s = s := by simp [recordAndAdvance, h]

theorem recordAndAdvance_ordinary {c : Byte} (s : State) (h : isSpecial c = false) :
    recordAndAdvance c s = advanceCursor (shadowWrite s.cursor c s) := by
  simp [recordAndAdvance, h]

@[simp] theorem recordAndAdvance_img (c : Byte) (s : State) :
    (recordAndAdvance c s).img = s.img := by
  unfold recordAndAdvance; split_ifs <;> rfl

@[simp] theorem recordAndAdvance_cfg (c : Byte) (s : State) :
    (recordAndAdvance c s).cfg = s.cfg := by
  unfold recordAndAdvance; split_ifs <;> rfl

@[simp] theorem recordAndAdvance_ovr (c : Byte) (s : State) :
    (recordAndAdvance c s).ovr = s.ovr := by
  unfold recordAndAdvance; split_ifs <;> rfl

theorem recordAndAdvance_cursor (c : Byte) (s : State) :
    (recordAndAdvance c s).cursor =
      if isSpecial c then s.cursor else (s.cursor + 1) % s.cfg.ndig := by
  unfold recordAndAdvance; split_ifs <;> rfl

theorem recordAndAdvance_shadow (c : Byte) (s : State) :
    (recordAndAdvance c s).shadow = if isSpecial c then s.shadow else s.shadow.write s.cursor c := by
  unfold recordAndAdvance; split_ifs <;> rfl

theorem displayFrom_recordAndAdvance (c : Byte) (s : State) :
    DisplayFrom s (recordAndAdvance c s) := by
  unfold recordAndAdvance; split_ifs <;> rfl

theorem displayFrom_put {c : Byte} {d : Nat} {s t : State} (h : put c d s = .ok t) :
    DisplayFrom s t := by
  rw [put_eq_setImg h]; rfl

theorem displayFrom_home (s : State) : DisplayFrom s (setCursor 0 (zeroImage s)) := rfl

/-! The whole stream. -/

/-- The induction of `stream`, once: what every character keeps holds at the end. -/
theorem streamChars_keeps (P : State → Prop) {cs : List Byte} {s u : State}
    (hput : ∀ c s t, P s → put c s.cursor s = .ok t → P (recordAndAdvance c t))
    (h : streamChars cs s = .ok u) (hs : P s) : P u := by
  induction cs generalizing s with
  | nil => simp only [streamChars, Except.ok.injEq] at h; exact h ▸ hs
  | cons c cs ih =>
    simp only [streamChars] at h
    split at h
    · rename_i t ht
      exact ih h (hput c s t hs ht)
    · cases h

theorem displayFrom_streamChars {cs : List Byte} {s u : State} (h : streamChars cs s = .ok u) :
    DisplayFrom s u :=
  streamChars_keeps (DisplayFrom s)
    (fun c _ t hs ht => (hs.trans (displayFrom_put ht)).trans (displayFrom_recordAndAdvance c t)) h
    (DisplayFrom.refl s)

theorem put_cursor {c : Byte} {d : Nat} {s t : State} (h : put c d s = .ok t) :
    t.cursor = s.cursor := by rw [put_eq_setImg h]; rfl
theorem put_cfg {c : Byte} {d : Nat} {s t : State} (h : put c d s = .ok t) :
    t.cfg = s.cfg := by rw [put_eq_setImg h]; rfl
theorem put_shadow {c : Byte} {d : Nat} {s t : State} (h : put c d s = .ok t) :
    t.shadow = s.shadow := by rw [put_eq_setImg h]; rfl
theorem put_ovr {c : Byte} {d : Nat} {s t : State} (h : put c d s = .ok t) :
    t.ovr = s.ovr := by rw [put_eq_setImg h]; rfl

theorem recordAndAdvance_cursor_lt {c : Byte} {s t : State} (ht : put c s.cursor s = .ok t)
    (h : s.cursor < s.cfg.ndig) :
    (recordAndAdvance c t).cursor < (recordAndAdvance c t).cfg.ndig := by
  rw [recordAndAdvance_cfg, recordAndAdvance_cursor, put_cfg ht, put_cursor ht]
  split_ifs
  · exact h
  · exact advance_lt h

/-- A stream cannot fault while the cursor is inside the chain (R108). -/
theorem streamChars_completes (cs : List Byte) {s : State} (h : s.cursor < s.cfg.ndig) :
    ∃ u, streamChars cs s = .ok u := by
  induction cs generalizing s with
  | nil => exact ⟨s, rfl⟩
  | cons c cs ih =>
    obtain ⟨t, ht⟩ := put_completes c h h
    simp only [streamChars, ht]
    exact ih (recordAndAdvance_cursor_lt ht h)

theorem stream_next {cs : List Byte} {s t : State} :
    stream cs s = .next t ↔
      ∃ u, streamChars cs (setCursor 0 (zeroImage s)) = .ok u ∧ t = completeWithFlush u := by
  unfold stream
  cases streamChars cs (setCursor 0 (zeroImage s)) <;> simp [eq_comm]

theorem stream_completes (cs : List Byte) {s : State} (h : 0 < s.cfg.ndig) :
    ∃ u, streamChars cs (setCursor 0 (zeroImage s)) = .ok u ∧
      stream cs s = .next (completeWithFlush u) := by
  obtain ⟨u, hu⟩ := streamChars_completes cs (s := setCursor 0 (zeroImage s)) h
  exact ⟨u, hu, stream_next.2 ⟨u, hu, rfl⟩⟩

theorem stream_fault {cs : List Byte} {s : State} {f : Fault} (h : stream cs s = .fault f) :
    s.cfg.ndig = 0 := by
  rcases Nat.eq_zero_or_pos s.cfg.ndig with h0 | h0
  · exact h0
  · obtain ⟨u, -, hu⟩ := stream_completes cs h0
    rw [hu] at h; cases h

theorem stream_refused {cs : List Byte} {s : State} {q : Refusal} : stream cs s ≠ .refused q := by
  unfold stream
  cases streamChars cs (setCursor 0 (zeroImage s)) <;> simp

/-- The cursor counts the ordinary characters (R104). -/
theorem streamChars_cursor {cs : List Byte} {s u : State} (h : streamChars cs s = .ok u)
    (hs : s.cursor < s.cfg.ndig) :
    u.cursor = (s.cursor + (ordinaries cs).length) % s.cfg.ndig := by
  induction cs generalizing s with
  | nil =>
    simp only [streamChars, Except.ok.injEq] at h
    subst h
    simp [ordinaries, Nat.mod_eq_of_lt hs]
  | cons c cs ih =>
    simp only [streamChars] at h
    split at h
    · rename_i t ht
      rw [ih h (recordAndAdvance_cursor_lt ht hs), recordAndAdvance_cursor, recordAndAdvance_cfg,
        put_cfg ht, put_cursor ht]
      unfold ordinaries
      cases hc : isSpecial c
      · simp [hc]; congr 1; omega
      · simp [hc]
    · cases h

/-- The first pending character of a stream, taken apart. -/
theorem streamChars_cons {c : Byte} {cs : List Byte} {s u : State}
    (h : streamChars (c :: cs) s = .ok u) :
    ∃ t, put c s.cursor s = .ok t ∧ streamChars cs (recordAndAdvance c t) = .ok u := by
  simp only [streamChars] at h
  split at h
  · rename_i t ht
    exact ⟨t, ht, h⟩
  · cases h

end Sys2Proof.Machine
end

