-- ==== Sys2Proof/Laws/Exec.lean ====
section
/-! SUPPORT. One inversion lemma per command: when it answers a next state, and which. -/

namespace Sys2Proof.Machine

theorem whenReady_next {s t : State} {k : Outcome} :
    whenReady s k = .next t ↔ s.phase = .ready ∧ k = .next t := by
  unfold whenReady; cases s.phase <;> simp

theorem whenReady_fault {s : State} {k : Outcome} {f : Fault} :
    whenReady s k = .fault f ↔ s.phase = .ready ∧ k = .fault f := by
  unfold whenReady; cases s.phase <;> simp

theorem whenReady_refused {s : State} {k : Outcome} {q : Refusal} :
    whenReady s k = .refused q ↔
      (s.phase = .ready ∧ k = .refused q) ∨ (s.phase ≠ .ready ∧ q = .notReady) := by
  unfold whenReady; cases s.phase <;> simp [eq_comm (a := Refusal.notReady)]

theorem whenReady_of_ready {s : State} (h : s.phase = .ready) (k : Outcome) :
    whenReady s k = k := by
  unfold whenReady; rw [h]

theorem execInit_next {s t : State} :
    execInit s = .next t ↔ s.phase = .uninit ∧
      t = setOk (nextAnswer s) (setPhase (phaseAfterInit (nextAnswer s))
        (logEvent (.initAttempt (nextAnswer s)) (answerDrawn s))) := by
  unfold execInit whenUninit; cases s.phase <;> simp [eq_comm]

theorem execClear_next {s t : State} :
    execClear s = .next t ↔ s.phase = .ready ∧
      t = completeWithFlush (setCursor 0 (zeroImage s)) := by
  unfold execClear; rw [whenReady_next]; simp [eq_comm]

theorem execFlush_next {s t : State} :
    execFlush s = .next t ↔ s.phase = .ready ∧ t = completeWithFlush s := by
  unfold execFlush; rw [whenReady_next]; simp [eq_comm]

theorem execWrchar_next {c d : Byte} {s t : State} :
    execWrchar c d s = .next t ↔
      s.phase = .ready ∧ ∃ u, put c d.toNat s = .ok u ∧ t = setOk true u := by
  unfold execWrchar; rw [whenReady_next]
  cases put c d.toNat s <;> simp [eq_comm]

theorem execWrbyte_next {c : Byte} {s t : State} :
    execWrbyte c s = .next t ↔
      s.phase = .ready ∧ ∃ u, put c s.cursor s = .ok u ∧
        t = completeWithFlush (if isSpecial c then u else advanceCursor u) := by
  unfold execWrbyte; rw [whenReady_next]
  cases put c s.cursor s <;> simp [eq_comm (a := t)]

theorem execWrstream_next {cs : List Byte} {s t : State} :
    execWrstream cs s = .next t ↔ s.phase = .ready ∧ stream cs s = .next t := by
  unfold execWrstream; rw [whenReady_next]

theorem execShl_next {n : Byte} {s t : State} :
    execShl n s = .next t ↔ s.phase = .ready ∧
      ((n.toNat < s.cfg.ndig ∧ stream (shiftedLeft n.toNat s) s = .next t) ∨
        (s.cfg.ndig ≤ n.toNat ∧ t = setOk false s)) := by
  unfold execShl shiftAccepted; rw [whenReady_next]
  by_cases h : n.toNat < s.cfg.ndig
  · simp [h]
  · simp [h, eq_comm]; omega

theorem execShr_next {n : Byte} {s t : State} :
    execShr n s = .next t ↔ s.phase = .ready ∧
      ((n.toNat < s.cfg.ndig ∧ stream (shiftedRight n.toNat s) s = .next t) ∨
        (s.cfg.ndig ≤ n.toNat ∧ t = setOk false s)) := by
  unfold execShr shiftAccepted; rw [whenReady_next]
  by_cases h : n.toNat < s.cfg.ndig
  · simp [h]
  · simp [h, eq_comm]; omega

theorem execDefglyph_next {c : Byte} {m : BitVec 16} {s t : State} :
    execDefglyph c m s = .next t ↔ s.phase = .ready ∧
      ((isDefinable c = true ∧ t = setOk true (setOvr (s.ovr ++ [⟨c.toNat - 0x20, keptMask m⟩]) s)) ∨
        (isDefinable c = false ∧ t = setOk false s)) := by
  unfold execDefglyph; rw [whenReady_next]
  cases isDefinable c <;> simp [eq_comm]

theorem execGlyphq_next {c : Byte} {s t : State} :
    execGlyphq c s = .next t ↔ s.phase = .ready ∧
      t = setOk true (setRes0 ((glyph s c).setWidth 16) s) := by
  unfold execGlyphq; rw [whenReady_next]; simp [eq_comm]

theorem execSegq_next {g : Seg} {d : Byte} {s t : State} :
    execSegq g d s = .next t ↔ s.phase = .ready ∧ d.toNat < s.cfg.ndig ∧
      t = setOk true (setRes1 (segaddr s.cfg g d.toNat).2
        (setRes0 (BitVec.ofNat 16 (segaddr s.cfg g d.toNat).1) s)) := by
  unfold execSegq digitInChain; rw [whenReady_next]
  by_cases h : d.toNat < s.cfg.ndig <;> simp [h, eq_comm]

/-- How a next state can come about: by INIT, with one flush of the final image, or with no bus
traffic at all. Every claim about `TRACE`, the answers and the phase follows from this. -/
theorem exec_next_shape {i : Instr} {s t : State} (h : exec i s = .next t) :
    (i = .init ∧ s.phase = .uninit ∧
      t = setOk (nextAnswer s) (setPhase (phaseAfterInit (nextAnswer s))
        (logEvent (.initAttempt (nextAnswer s)) (answerDrawn s)))) ∨
    (s.phase = .ready ∧ FlushedFrom s t ∧
      (i = .clear ∨ i = .flush ∨ (∃ c, i = .wrbyte c) ∨ (∃ cs, i = .wrstream cs) ∨
        (∃ n, i = .shl n ∧ n.toNat < s.cfg.ndig) ∨ (∃ n, i = .shr n ∧ n.toNat < s.cfg.ndig))) ∨
    (s.phase = .ready ∧
      t = { s with img := t.img, ovr := t.ovr, ok := t.ok, res0 := t.res0, res1 := t.res1 } ∧
      ((∃ c d, i = .wrchar c d) ∨ (∃ c m, i = .defglyph c m) ∨ (∃ c, i = .glyphq c) ∨
        (∃ g d, i = .segq g d) ∨ (∃ n, i = .shl n ∧ s.cfg.ndig ≤ n.toNat) ∨
        (∃ n, i = .shr n ∧ s.cfg.ndig ≤ n.toNat))) := by
  have streamed : ∀ cs, stream cs s = .next t → FlushedFrom s t := by
    intro cs hs
    obtain ⟨u, hu, rfl⟩ := stream_next.1 hs
    exact flushedFrom_completeWithFlush
      ((displayFrom_home s).trans (displayFrom_streamChars hu))
  cases i with
  | init => exact .inl ⟨rfl, execInit_next.1 h⟩
  | clear =>
    obtain ⟨hr, rfl⟩ := execClear_next.1 h
    exact .inr (.inl ⟨hr, flushedFrom_completeWithFlush (displayFrom_home s), .inl rfl⟩)
  | flush =>
    obtain ⟨hr, rfl⟩ := execFlush_next.1 h
    exact .inr (.inl ⟨hr, flushedFrom_completeWithFlush (DisplayFrom.refl s), .inr (.inl rfl)⟩)
  | wrchar c d =>
    obtain ⟨hr, u, hu, rfl⟩ := execWrchar_next.1 h
    refine .inr (.inr ⟨hr, ?_, .inl ⟨c, d, rfl⟩⟩)
    rw [put_eq_setImg hu]; rfl
  | wrbyte c =>
    obtain ⟨hr, u, hu, rfl⟩ := execWrbyte_next.1 h
    refine .inr (.inl ⟨hr, flushedFrom_completeWithFlush ?_, .inr (.inr (.inl ⟨c, rfl⟩))⟩)
    refine (displayFrom_put hu).trans ?_
    split_ifs <;> rfl
  | wrstream cs =>
    obtain ⟨hr, hs⟩ := execWrstream_next.1 h
    exact .inr (.inl ⟨hr, streamed _ hs, .inr (.inr (.inr (.inl ⟨cs, rfl⟩)))⟩)
  | shl n =>
    obtain ⟨hr, ⟨hn, hs⟩ | ⟨hn, rfl⟩⟩ := execShl_next.1 h
    · exact .inr (.inl ⟨hr, streamed _ hs, .inr (.inr (.inr (.inr (.inl ⟨n, rfl, hn⟩))))⟩)
    · exact .inr (.inr ⟨hr, rfl, .inr (.inr (.inr (.inr (.inl ⟨n, rfl, hn⟩))))⟩)
  | shr n =>
    obtain ⟨hr, ⟨hn, hs⟩ | ⟨hn, rfl⟩⟩ := execShr_next.1 h
    · exact .inr (.inl ⟨hr, streamed _ hs, .inr (.inr (.inr (.inr (.inr ⟨n, rfl, hn⟩))))⟩)
    · exact .inr (.inr ⟨hr, rfl, .inr (.inr (.inr (.inr (.inr ⟨n, rfl, hn⟩))))⟩)
  | defglyph c m =>
    obtain ⟨hr, ⟨-, rfl⟩ | ⟨-, rfl⟩⟩ := execDefglyph_next.1 h <;>
      exact .inr (.inr ⟨hr, rfl, .inr (.inl ⟨c, m, rfl⟩)⟩)
  | glyphq c =>
    obtain ⟨hr, rfl⟩ := execGlyphq_next.1 h
    exact .inr (.inr ⟨hr, rfl, .inr (.inr (.inl ⟨c, rfl⟩))⟩)
  | segq g d =>
    obtain ⟨hr, -, rfl⟩ := execSegq_next.1 h
    exact .inr (.inr ⟨hr, rfl, .inr (.inr (.inr (.inl ⟨g, d, rfl⟩)))⟩)

/-- What a step can do: nothing presented, an invalid sequence refused, or the decoded command run on
the state with its bytes taken. -/
theorem step_cases (s : State) :
    (s.input = [] ∧ step s = .next s) ∨
    (∃ r, s.input ≠ [] ∧ decode s.input = .invalid r ∧ step s = .refused (refusalOf r)) ∨
    (∃ i rest, decode s.input = .command i rest ∧ step s = exec i (setInput rest s)) := by
  unfold step fetch
  cases hin : s.input with
  | nil => exact .inl ⟨rfl, rfl⟩
  | cons b bs =>
    cases hd : decode (b :: bs) with
    | command i rest => exact .inr (.inr ⟨i, rest, rfl, by simp⟩)
    | invalid r => exact .inr (.inl ⟨r, by simp, rfl, by simp⟩)

end Sys2Proof.Machine
end

