-- ==== Sys2Proof/Laws/PerInstr.lean ====
section
/-! SUPPORT. A family of statements about every instruction as syntax, one lemma per constructor. -/

namespace Sys2Proof.Laws.EncodedLength

/-- The length that byte 0 (or for a stream byte 1) announces is the length of the encoding
(30_encoding.md R51, R56). -/
def Statement (i : Instr) : Prop :=
  i.wellFormed = true → commandLength (encode i) = some (encode i).length

theorem init : Statement .init := fun _ => rfl
theorem clear : Statement .clear := fun _ => rfl
theorem flush : Statement .flush := fun _ => rfl
theorem wrchar (c d : Byte) : Statement (.wrchar c d) := fun _ => rfl
theorem wrbyte (c : Byte) : Statement (.wrbyte c) := fun _ => rfl
theorem wrstream (cs : List Byte) : Statement (.wrstream cs) := by
  intro h
  have hl : cs.length ≤ 255 := by simpa [Instr.wellFormed] using h
  simp [commandLength, encode]
  omega
theorem shl (n : Byte) : Statement (.shl n) := fun _ => rfl
theorem shr (n : Byte) : Statement (.shr n) := fun _ => rfl
theorem defglyph (c : Byte) (m : BitVec 16) : Statement (.defglyph c m) := fun _ => rfl
theorem glyphq (c : Byte) : Statement (.glyphq c) := fun _ => rfl
theorem segq (s : Seg) (d : Byte) : Statement (.segq s d) := fun _ => rfl

end Sys2Proof.Laws.EncodedLength
end

