-- ==== Sys2Proof/Laws/Run.lean ====
section
/-! SUPPORT. What an advance of a run can do, and that it always moves toward the end. -/

namespace Sys2Proof.Machine

/-- A command never touches the bytes that follow it. -/
theorem exec_keeps_input {i : Instr} {s t : State} (h : exec i s = .next t) : t.input = s.input := by
  rcases exec_next_shape h with ⟨-, -, rfl⟩ | ⟨-, hf, -⟩ | ⟨-, hf, -⟩
  · rfl
  · rw [hf]
  · rw [hf]

/-- The bytes after a decoded command are those after the length its first bytes fix. -/
theorem bytesAfterCommand_of_decode {bs rest : List Byte} {i : Instr}
    (h : decode bs = .command i rest) : bytesAfterCommand bs = rest := by
  cases bs with
  | nil => cases h
  | cons op after =>
    unfold decode at h
    unfold bytesAfterCommand commandLength
    split at h
    all_goals rename_i ho
    all_goals try simp only [ho]
    all_goals try simp only [decodeF1, decodeF2, decodeF3, decodeFV] at h
    all_goals cases after
    all_goals grind [List.drop]

theorem bytesAfterCommand_length (b : Byte) (bs : List Byte) :
    (bytesAfterCommand (b :: bs)).length ≤ bs.length := by
  have h : ∀ n, commandLength (b :: bs) = some n → 1 ≤ n := by
    intro n hn
    simp only [commandLength] at hn
    split at hn <;> first | (simp at hn; omega) | (cases bs <;> simp at hn)
  unfold bytesAfterCommand
  split
  · rename_i n hn
    have := h n hn
    simp only [List.length_drop, List.length_cons]; omega
  · simp

/-- A completed step takes exactly the bytes of its command. -/
theorem step_next_input {s t : State} (h : step s = .next t) :
    t.input = bytesAfterCommand s.input := by
  rcases step_cases s with ⟨h0, h1⟩ | ⟨r, -, -, h1⟩ | ⟨i, rest, hd, h1⟩ <;> rw [h1] at h
  · cases h; rw [h0]; rfl
  · cases h
  · rw [exec_keeps_input h, setInput_input, bytesAfterCommand_of_decode hd]

/-- A completed step of presented bytes leaves fewer of them. -/
theorem step_input_length {s t : State} (hs : s.input ≠ []) (h : step s = .next t) :
    t.input.length < s.input.length := by
  rw [step_next_input h]
  cases hi : s.input with
  | nil => exact absurd hi hs
  | cons b bs => exact Nat.lt_succ_of_le (bytesAfterCommand_length b bs)

@[simp] theorem conclude_program (r : RunState) (o : Outcome) (l : List Byte) :
    (r.conclude o l).program = r.program := by cases o <;> rfl

@[simp] theorem advance_of_fault {r : RunState} {f : Fault} (h : r.fault = some f) :
    r.advance = r := by simp [RunState.advance, h]

theorem ended_iff (r : RunState) : r.ended = true ↔ r.program = [] ∧ r.state.input = [] := by
  simp [RunState.ended]

theorem advance_of_ended {r : RunState} (h : r.ended = true) : r.advance = r := by
  obtain ⟨hp, hi⟩ := (ended_iff r).1 h
  cases hf : r.fault <;> simp [RunState.advance, hp, hi, hf]

/-- What follows in a run while presented bytes are left. -/
theorem advance_of_bytes {r : RunState} (hf : r.fault = none) {b : Byte} {bs : List Byte}
    (hi : r.state.input = b :: bs) :
    r.advance = r.conclude (step r.state) (bytesAfterCommand (b :: bs)) := by
  simp [RunState.advance, hf, hi]

/-- What follows in a run when every presented byte is taken. -/
theorem advance_of_presentation {r : RunState} (hf : r.fault = none) (hi : r.state.input = [])
    {p : Presentation} {ps : List Presentation} (hp : r.program = p :: ps) :
    r.advance = ({ r with program := ps } : RunState).conclude (presentationOutcome p r.state)
      (bytesAfterCommand (presentedBytes p)) := by
  simp [RunState.advance, hf, hi, hp]

/-- A completed presentation leaves no more bytes than it brought. -/
theorem presentation_input_length {p : Presentation} {s t : State} (hs : s.input = [])
    (h : presentationOutcome p s = .next t) : t.input.length ≤ (presentedBytes p).length := by
  cases p with
  | command i => rw [exec_keeps_input h, hs]; simp
  | bytes bs =>
    cases bs with
    | nil => simp [presentationOutcome, step, fetch] at h; subst h; simp [presentedBytes]
    | cons b bs => exact (step_input_length (by simp) h).le
  | operation op => cases h
  | together i j => cases h

theorem bytesAfterCommand_le (bs : List Byte) : (bytesAfterCommand bs).length ≤ bs.length := by
  cases bs with
  | nil => simp [bytesAfterCommand, commandLength]
  | cons b bs => exact (bytesAfterCommand_length b bs).trans (by simp)

/-- The bytes left after an outcome, whichever it is. -/
theorem conclude_input_length {r : RunState} {o : Outcome} {l : List Byte} {n : Nat}
    (hl : l.length ≤ n) (hn : ∀ t, o = .next t → t.input.length ≤ n) :
    (r.conclude o l).state.input.length ≤ n := by
  cases o with
  | next t => exact hn t rfl
  | fault f => exact hl
  | refused q => exact hl

/-- A run that has not ended and has no fault moves toward its end. -/
theorem advance_remaining {r : RunState} (hf : r.fault = none) (he : r.ended = false) :
    r.advance.remaining < r.remaining := by
  cases hi : r.state.input with
  | cons b bs =>
    have h := conclude_input_length (r := r) (bytesAfterCommand_length b bs)
      (fun t ht => by
        have := step_input_length (s := r.state) (by simp [hi]) ht
        rw [hi, List.length_cons] at this; omega)
    rw [advance_of_bytes hf hi]
    simp only [RunState.remaining, conclude_program, hi, List.length_cons]; omega
  | nil =>
    cases hp : r.program with
    | nil => simp [(ended_iff r).2 ⟨hp, hi⟩] at he
    | cons p ps =>
      have h := conclude_input_length (r := { r with program := ps })
        (bytesAfterCommand_le (presentedBytes p)) (fun t => presentation_input_length hi)
      rw [advance_of_presentation hf hi hp]
      simp only [RunState.remaining, conclude_program, hi, hp, List.length_nil, List.map_cons,
        List.sum_cons]
      omega

end Sys2Proof.Machine
end

