-- ==== Sys2Proof/Tests/Slice0.lean ====
section
/-! SUPPORT. The model's own tests: words written out from 30_encoding.md, steps whose results are the
vectors of 95_test_vectors.md, and for each statement with premises a witness that meets them. -/

namespace Sys2Proof.Tests

open Sys2Proof.Machine

/-! ## The fixture of 95_test_vectors.md section 2 -/

/-- The fixture's glyphs. -/
def fixtureGlyph : Nat → Mask14
  | 17 => 0x0406
  | 24 => 0x017F
  | 33 => 0x0177
  | 34 => 0x130F
  | 37 => 0x0179
  | 51 => 0x018D
  | 52 => 0x1201
  | _ => 0

/-- The fixture on a chain of n chips. -/
def fixture (n : Nat) : Config where
  chain := (List.range n).map (fun k => BitVec.ofNat 8 (0x70 + k))
  rom := romWith fixtureGlyph
  comtab := comtabOfR86
  decOff := 3
  colOff := 1

/-- The state after reset, on a chain of n chips that will acknowledge eight times. -/
def fresh (n : Nat) : State :=
  { State.reset with cfg := fixture n, answers := List.replicate 8 true }

/-- The state after a successful INIT. -/
def ready (n : Nat) : State := { fresh n with phase := .ready }

/-- "From a clean start": the image zero as well. -/
def clean (n : Nat) : State := { ready n with img := zeroBelow (16 * n) [] }

/-- A clean start with the text "TEST" in the shadow, as V32 leaves it. -/
def withTest : State :=
  { clean 1 with shadow := [(0, 0x54), (1, 0x45), (2, 0x53), (3, 0x54)] }

def bytesOf (l : List Nat) : List Byte := l.map (BitVec.ofNat 8)

/-- The step that takes the bytes of one command. -/
def present (s : State) (l : List Nat) : Outcome := step { s with input := bytesOf l }

def stateAfter : Outcome → Option State
  | .next s => some s
  | .fault _ | .refused _ => none

def faultOf : Outcome → Option Fault
  | .fault f => some f
  | .next _ | .refused _ => none

def refusedFor : Outcome → Option Refusal
  | .refused q => some q
  | .next _ | .fault _ => none

theorem exists_next {o : Outcome} (h : (stateAfter o).isSome = true) : ∃ t, o = .next t := by
  cases o with
  | next t => exact ⟨t, rfl⟩
  | fault f => cases h
  | refused q => cases h

/-- The known bytes of the image, in ascending offset. -/
def imageBytes (s : State) : List Byte := s.img.map (·.2)

/-! ## Well-formedness (30_encoding.md R51, R56: n is one byte) -/

/-- A stream of 256 characters has no encoding. -/
theorem test_wellFormed_refuses_long_stream :
    (Instr.wrstream (bytesOf (List.range 256))).wellFormed = false := by
  simp [Instr.wellFormed, bytesOf]

theorem test_wellFormed_admits_longest_stream :
    (Instr.wrstream (bytesOf (List.range 255))).wellFormed = true := by
  simp [Instr.wellFormed, bytesOf]

/-! ## Decoding: one word per constructor, from the table of 30_encoding.md section 8 -/

theorem test_decode_init : decode [0x01] = .command .init [] := by decide
theorem test_decode_clear : decode [0x02] = .command .clear [] := by decide
theorem test_decode_flush : decode [0x03] = .command .flush [] := by decide
theorem test_decode_wrchar : decode [0x10, 0x41, 0x00] = .command (.wrchar 0x41 0x00) [] := by decide
theorem test_decode_wrbyte : decode [0x11, 0x2E] = .command (.wrbyte 0x2E) [] := by decide
theorem test_decode_wrstream :
    decode [0x12, 0x02, 0x41, 0x42] = .command (.wrstream [0x41, 0x42]) [] := by decide
theorem test_decode_shl : decode [0x20, 0x01] = .command (.shl 1) [] := by decide
theorem test_decode_shr : decode [0x21, 0x02] = .command (.shr 2) [] := by decide
theorem test_decode_defglyph :
    decode [0x30, 0x41, 0x77, 0xC1] = .command (.defglyph 0x41 0xC177) [] := by decide
theorem test_decode_glyphq : decode [0x40, 0x7E] = .command (.glyphq 0x7E) [] := by decide
theorem test_decode_segq : decode [0x41, 0x07, 0x05] = .command (.segq 7 0x05) [] := by decide

/-- V76, V79, V77: reserved opcodes, a segment of 14, a missing byte. -/
theorem test_decode_invalid :
    [0x00, 0x04, 0x13, 0x22, 0x31, 0x42, 0xFF].all
      (fun op => decode [op] == .invalid .opcode) = true ∧
    decode [0x41, 0x0E, 0x00] = .invalid .operand ∧
    decode [0x10, 0x41] = .invalid .truncated := by decide

/-- The words the host numbers from byte 0 up (opcode_table.json). -/
theorem test_decodeTableWord :
    decodeTableWord 8 0x02 = some .clear ∧ decodeTableWord 24 0x050741 = some (.segq 7 0x05) ∧
    decodeTableWord 32 0xC1774130 = some (.defglyph 0x41 0xC177) ∧
    decodeTableWord 8 0x10 = some (.wrchar 0 0) ∧ decodeTableWord 8 0x00 = none := by decide

/-! ## Steps: the vectors of 95_test_vectors.md section 3 -/

/-- V70. -/
theorem test_init_succeeds :
    (stateAfter (present (fresh 1) [0x01])).map (fun s => (s.phase, s.ok, s.trace, s.img ++ s.shadow)) =
      some (.ready, true, [.initAttempt true], []) := by decide

/-- V71. -/
theorem test_init_fails :
    (stateAfter (present { fresh 1 with answers := [false] } [0x01])).map
      (fun s => (s.phase, s.ok, s.trace)) = some (.failed, false, [.initAttempt false]) := by decide

/-- V46: chip 1's failure stops nothing. -/
theorem test_clear_with_a_failing_chip :
    (stateAfter (present { ready 4 with cursor := 9, answers := [true, false, true, true] }
        [0x02])).map (fun s => (imageBytes s, s.cursor, s.ok,
          s.trace.map (fun e => match e with
            | .busWrite k _ _ ack => (k, ack)
            | .initAttempt ok => (99, ok)))) =
      some (List.replicate 64 0x00, 0, false,
        [(0, true), (1, false), (2, true), (3, true)]) := by decide

/-- V48. -/
theorem test_flush_sends_the_image :
    let img := [(0, 0x08#8), (1, 0x00#8), (2, 0x88#8), (3, 0x00#8), (4, 0x08#8), (5, 0x00#8),
      (6, 0x00#8), (7, 0x00#8), (8, 0x08#8), (9, 0x00#8), (10, 0x08#8), (11, 0x00#8),
      (12, 0x08#8), (13, 0x00#8), (14, 0x00#8), (15, 0x00#8)]
    (stateAfter (present { ready 1 with img := img } [0x03])).map
        (fun s => (s.trace, s.ok, s.img == img)) =
      some ([.busWrite 0 0x70 (bytesOf [0x08, 0, 0x88, 0, 0x08, 0, 0, 0, 0x08, 0, 0x08, 0, 0x08, 0, 0, 0])
        true], true, true) := by decide

/-- V20. -/
theorem test_wrchar :
    (stateAfter (present (clean 1) [0x10, 0x41, 0x01])).map
        (fun s => (imageBytes s, s.cursor, s.ok, s.trace, digitmask s 1)) =
      some (bytesOf [0x02, 0, 0x22, 0, 0x02, 0, 0, 0, 0x02, 0, 0x02, 0, 0x02, 0, 0, 0], 0, true, [],
        0x0177) := by decide

/-- V24 (its second command): the digit operand 200 of '.' is ignored. -/
theorem test_wrchar_special :
    (stateAfter (present (clean 1) [0x10, 0x2E, 0xC8])).map (fun s => (imageBytes s, s.cursor)) =
      some (bytesOf [0, 0, 0, 0x01, 0, 0, 0, 0, 0, 0, 0, 0, 0, 0, 0, 0], 0) := by decide

/-- V42: the cursor wraps. -/
theorem test_wrbyte_wraps :
    (stateAfter (present { clean 1 with cursor := 3 } [0x11, 0x41])).map
        (fun s => (imageBytes s, s.cursor, s.shadow, s.ok)) =
      some (bytesOf [0x08, 0, 0x88, 0, 0x08, 0, 0, 0, 0x08, 0, 0x08, 0, 0x08, 0, 0, 0], 0, [],
        true) := by decide

/-- V44 (its second command, on a clean image): the colon goes to the chip that owns cursor 4. -/
theorem test_wrbyte_special :
    (stateAfter (present { clean 2 with cursor := 4 } [0x11, 0x3A])).map
        (fun s => (s.img.filter (fun c => c.2 != 0), s.cursor)) =
      some ([(17, 0x01)], 4) := by decide

/-- V34: the fifth character wraps onto digit 0. -/
theorem test_wrstream_wraps :
    (stateAfter (present (clean 1) [0x12, 0x05, 0x41, 0x42, 0x42, 0x42, 0x45])).map
        (fun s => (imageBytes s, s.cursor, s.shadow)) =
      some (bytesOf [0x0F, 0, 0xFF, 0, 0xEF, 0, 0x0F, 0, 0x01, 0, 0xE1, 0, 0x01, 0, 0, 0], 1,
        [(0, 0x45), (1, 0x42), (2, 0x42), (3, 0x42)]) := by decide

/-- V39: the point after the fourth character goes to chip 1. -/
theorem test_wrstream_point :
    (stateAfter (present (ready 2) [0x12, 0x05, 0x31, 0x38, 0x31, 0x38, 0x2E])).map
        (fun s => (imageBytes s, s.cursor, s.trace.length)) =
      some (bytesOf [0x0A, 0, 0xAF, 0, 0x0F, 0, 0x5A, 0, 0x0A, 0, 0x0A, 0, 0x0A, 0, 0, 0,
        0, 0, 0, 0x01, 0, 0, 0, 0, 0, 0, 0, 0, 0, 0, 0, 0], 4, 2) := by decide

/-- V50: "TEST" becomes "EST ". -/
theorem test_shl :
    (stateAfter (present withTest [0x20, 0x01])).map (fun s => (imageBytes s, s.shadow, s.cursor)) =
      some (bytesOf [0x27, 0, 0x30, 0, 0x42, 0, 0x03, 0, 0x01, 0, 0x41, 0, 0x01, 0, 0, 0],
        [(0, 0x45), (1, 0x53), (2, 0x54), (3, 0x20)], 0) := by decide

/-- V52: a shift by NDIG is rejected. -/
theorem test_shl_rejected :
    (stateAfter (present { withTest with ok := true, cursor := 2 } [0x20, 0x04])) =
      some { withTest with ok := false, cursor := 2 } := by decide

/-- V55. -/
theorem test_shr :
    (stateAfter (present withTest [0x21, 0x03])).map (fun s => (imageBytes s, s.shadow)) =
      some (bytesOf [0x08, 0, 0, 0, 0x80, 0, 0, 0, 0, 0, 0x80, 0, 0, 0, 0, 0],
        [(0, 0x20), (1, 0x20), (2, 0x20), (3, 0x54)]) := by decide

/-- V58. -/
theorem test_shr_rejected :
    (stateAfter (present withTest [0x21, 0xFF])) = some { withTest with ok := false } := by decide

/-- V62: bits 15 and 14 of the mask are dropped. -/
theorem test_defglyph :
    (stateAfter (present (clean 1) [0x30, 0x41, 0x77, 0xC1])).map (fun s => (s.ovr, s.ok)) =
      some ([⟨33, 0x0177⟩], true) := by decide

/-- V63. -/
theorem test_defglyph_rejected :
    [0x20, 0x7F, 0x00].all (fun c =>
      stateAfter (present { clean 1 with ok := true } [0x30, c, 0x01, 0x00]) ==
        some { clean 1 with ok := false }) = true := by decide

/-- V5. -/
theorem test_glyphq_sentinel :
    [0x7F, 0x00, 0xFF].all (fun c =>
      stateAfter (present (clean 1) [0x40, c]) ==
        some { clean 1 with res0 := 0x3FFF, ok := true }) = true := by decide

/-- V61: the first of two overrides governs. -/
theorem test_glyphq_first_override :
    (stateAfter (present { clean 1 with ovr := [⟨1, 0x2AAA⟩, ⟨1, 0x1555⟩] } [0x40, 0x21])).map
      (·.res0) = some 0x2AAA := by decide

/-- V19: the highest address there is. -/
theorem test_segq :
    stateAfter (present (clean 4) [0x41, 0x0D, 0x0F]) =
      some { clean 4 with res0 := 0x003C, res1 := 0x80, ok := true } := by decide

/-- V19c, V19b: a digit outside the chain. -/
theorem test_segq_digit_range :
    faultOf (present (clean 4) [0x41, 0x00, 0x10]) = some .digitRange ∧
    faultOf (present (clean 1) [0x41, 0x00, 0x04]) = some .digitRange := by decide

/-- V25, V80, V79, V75: the order of the tests. -/
theorem test_order_of_the_tests :
    faultOf (present (clean 1) [0x10, 0x41, 0x04]) = some .digitRange ∧
    refusedFor (present (fresh 1) [0x10, 0x41, 0x09]) = some .notReady ∧
    refusedFor (present (fresh 1) [0x41, 0x0E, 0x00]) = some .invalidOperand ∧
    refusedFor (present (fresh 1) [0x12, 0x02, 0x41, 0x42]) = some .notReady ∧
    refusedFor (present (ready 1) [0x01]) = some .alreadyInitialised := by decide

/-- V29: after reset and INIT alone an 'A' sets its bits and no byte holds a known value: byte 2 has
bits 0 and 4, and its other bits are those of the free value. -/
theorem test_wrchar_on_unwritten_image :
    (stateAfter (present (ready 1) [0x10, 0x41, 0x00])).map (fun s => memRead s 2) =
      some (Config.imgAtReset 2 ||| 0x01 ||| 0x10) := rfl

/-! ## Witnesses: for each statement with premises, a state and operands that meet them together -/

theorem witness_invariants (n : Nat) (h : n = 1 ∨ n = 4) : Invariants (clean n) := by
  rcases h with rfl | rfl <;>
    exact ⟨by decide, by decide, by decide, by decide, by decide, by decide, by decide, fun _ h => nomatch h⟩

/-- The same chain before INIT, and one with a stream's text. -/
theorem witness_invariants_fresh : Invariants (fresh 1) :=
  ⟨by decide, by decide, by decide, by decide, by decide, by decide, by decide, fun _ h => nomatch h⟩

theorem witness_invariants_withTest : Invariants withTest :=
  ⟨by decide, by decide, by decide, by decide, by decide, by decide, by decide, fun _ h => nomatch h⟩

theorem witness_DecodeOfEncodeIsTheCommand :
    (Instr.wrstream (bytesOf (List.range 255))).wellFormed = true ∧
    (Instr.segq 13 0xFF).wellFormed = true :=
  ⟨test_wellFormed_admits_longest_stream, rfl⟩

theorem witness_DecodedBytesAreTheEncoding :
    decode [0x41, 0x0D, 0xFF, 0x00] = .command (.segq 13 0xFF) [0x00] := by decide

/-- One input for each clause. -/
theorem witness_InvalidBytesAreRefusedByName :
    (0xFF#8).toNat ∉ [0x01, 0x02, 0x03, 0x10, 0x11, 0x12, 0x20, 0x21, 0x30, 0x40, 0x41] ∧
    14 ≤ (0x0E#8).toNat ∧
    (commandLength [0x12, 0x03, 0x41, 0x42] = some 5 ∧ [0x12#8, 0x03, 0x41, 0x42].length < 5) ∧
    ({ fresh 1 with input := [0x12] } : State).input = 0x12 :: [] := by decide

theorem witness_CommandLengthFromTheFirstBytes :
    decode (0x30 :: [0x7E, 0x00, 0x00]) = .command (.defglyph 0x7E 0x0000) [] ∧
    decode (0x12 :: [0x00, 0x02]) = .command (.wrstream []) [0x02] := by decide

/-- One state for each clause. -/
theorem witness_StepRunsTheDecodedCommand :
    decode ({ clean 1 with input := [0x03, 0x02] } : State).input = .command .flush [0x02] ∧
    (({ clean 1 with input := [0x00] } : State).input ≠ [] ∧
      decode ({ clean 1 with input := [0x00] } : State).input = .invalid .opcode) ∧
    (clean 1).input = [] := by decide

theorem witness_StepKeepsTheInvariants :
    Invariants { clean 1 with input := [0x11, 0x41] } ∧
    ∃ t, step { clean 1 with input := [0x11, 0x41] } = .next t :=
  ⟨⟨by decide, by decide, by decide, by decide, by decide, by decide, by decide, fun _ h => nomatch h⟩,
    exists_next (by decide)⟩

theorem witness_ConfigurationNeverChanges :
    ∃ t, step { fresh 1 with input := [0x01] } = .next t := exists_next (by decide)

theorem witness_PhaseMovesOnlyByInit :
    (∃ t, exec .init (fresh 1) = .next t) ∧ (∃ t, exec .clear (clean 1) = .next t) ∧
    (clean 1).phase ≠ .uninit ∧ ∃ t, step { clean 1 with input := [0x02] } = .next t :=
  ⟨exists_next (by decide), exists_next (by decide), by decide, exists_next (by decide)⟩

theorem witness_OverridesOnlyGrow :
    (∃ t, exec (.defglyph 0x21 0x2AAA) (clean 1) = .next t) ∧
    ∃ t, exec (.defglyph 0x7E 0xFFFF) (clean 1) = .next t :=
  ⟨exists_next (by decide), exists_next (by decide)⟩

theorem witness_OtherCommandsOnlySetImageBits :
    (∃ t, exec (.wrchar 0x41 0x03) { clean 1 with img := [(0, 0x80)] } = .next t) ∧
    (memRead { clean 1 with img := [(0, 0x80)] } 0).getLsbD 7 = true :=
  ⟨exists_next (by decide), by decide⟩

theorem witness_ShadowWrittenOnlyByStreams :
    ∃ t, exec (.wrbyte 0x41) withTest = .next t := exists_next (by decide)

theorem witness_ResultRegistersWrittenOnlyByQueries :
    (∃ t, exec (.glyphq 0x41) (clean 1) = .next t) ∧ ∃ t, exec .flush (clean 1) = .next t :=
  ⟨exists_next (by decide), exists_next (by decide)⟩

/-- The premise, and both kinds of the right-hand side at the first digit outside the chain. -/
theorem witness_OnlyDigitRangeFaults :
    Invariants (clean 1) ∧ faultOf (exec (.wrchar 0x41 0x04) (clean 1)) = some .digitRange ∧
    faultOf (exec (.segq 0 0x04) (clean 1)) = some .digitRange :=
  ⟨witness_invariants 1 (.inl rfl), by decide, by decide⟩

theorem witness_RefusalsAreByPhase :
    refusedFor (exec .clear (fresh 1)) = some .notReady ∧
    refusedFor (exec .init { clean 1 with phase := .failed }) = some .alreadyInitialised := by decide

/-- With the last digit of the chain. -/
theorem witness_ReadyCommandsComplete :
    Invariants (clean 4) ∧ (clean 4).phase = .ready ∧ (Instr.segq 13 0x0F) ≠ .init ∧
    (0x0F#8).toNat < (clean 4).cfg.ndig := by
  exact ⟨witness_invariants 4 (.inr rfl), by decide, by decide, by decide⟩

theorem shadowOrdinary_withTest : ShadowOrdinary withTest := by
  intro i v h
  simp only [withTest, Memory.lookup] at h
  split at h
  · cases h; decide
  split at h
  · cases h; decide
  split at h
  · cases h; decide
  split at h
  · cases h; decide
  · cases h

theorem witness_ShadowStaysOrdinary :
    ShadowOrdinary withTest ∧ ShadowOrdinary { withTest with input := [0x20, 0x01] } ∧
    ∃ t, step { withTest with input := [0x20, 0x01] } = .next t :=
  ⟨shadowOrdinary_withTest, shadowOrdinary_withTest, exists_next (by decide)⟩

/-- Both ends of each range. -/
theorem witness_TableIndexOfACharacter :
    (0x20 ≤ (0x20#8).toNat ∧ (0x20#8).toNat ≤ 0x7E) ∧ (0x20 ≤ (0x7E#8).toNat ∧ (0x7E#8).toNat ≤ 0x7E) ∧
    (0x1F#8).toNat < 0x20 ∧ 0x7E < (0x7F#8).toNat ∧ idx 0x41 = idx 0x41 := by decide

theorem witness_FirstInsertedOverrideGoverns :
    ({ clean 1 with ovr := [⟨1, 0x2AAA⟩, ⟨1, 0x1555⟩] } : State).ovr =
      [] ++ ⟨1, 0x2AAA⟩ :: [⟨1, 0x1555⟩] ∧ (1 = idx 0x21) ∧
    (∀ x ∈ (clean 1).ovr, x.index ≠ idx 0x21) ∧ (clean 1).cfg.Legal := by decide

theorem witness_SpaceAndSentinelAreFixed :
    (clean 1).cfg.Legal ∧ OverridesLegal [⟨1, 0x2AAA⟩, ⟨94, 0x0000⟩] ∧ idx 0x7F = 95 ∧
    idx 0x1F = 95 := by decide

theorem witness_GlyphChangesOnlyAtAFirstDefinition :
    ∃ t, exec (.defglyph 0x21 0x2AAA) (clean 1) = .next t ∧ glyph t 0x21 ≠ glyph (clean 1) 0x21 :=
  ⟨_, rfl, by decide⟩

theorem witness_GlyphQueryResult : (clean 1).phase = .ready ∧ (fresh 1).phase ≠ .ready := by decide

theorem witness_DefineGlyphResult :
    (clean 1).phase = .ready ∧ (0x21 ≤ (0x7E#8).toNat ∧ (0x7E#8).toNat ≤ 0x7E) ∧
    (0x21 ≤ (0x21#8).toNat ∧ (0x21#8).toNat ≤ 0x7E) ∧
    ¬ (0x21 ≤ (0x20#8).toNat ∧ (0x20#8).toNat ≤ 0x7E) ∧
    ¬ (0x21 ≤ (0x7F#8).toNat ∧ (0x7F#8).toNat ≤ 0x7E) ∧ (fresh 1).phase ≠ .ready := by decide

/-- With no earlier override of the index, and with one. -/
theorem witness_DefinedGlyphIsSeenAtOnce :
    (clean 1).phase = .ready ∧ 0x21 ≤ (0x7E#8).toNat ∧ (0x7E#8).toNat ≤ 0x7E ∧
    (∀ x ∈ (clean 1).ovr, x.index ≠ idx 0x7E) ∧
    (∃ x ∈ ({ clean 1 with ovr := [⟨94, 0x0001⟩] } : State).ovr, x.index = idx 0x7E) ∧
    idx 0x21 ≠ idx 0x7E := by
  refine ⟨by decide, by decide, by decide, by decide, ⟨⟨94, 0x0001⟩, by decide, by decide⟩, by decide⟩

theorem witness_OverrideTableIsEquivalent :
    OverridesLegal [⟨1, 0x2AAA⟩, ⟨1, 0x1555⟩, ⟨94, 0x3FFF⟩] := by decide

/-- The table of R86 with G and H, and the ends of each group of digits. -/
theorem witness_SegmentRowAndChipBlock :
    (fixture 4).comtab = comtabOfR86 ∧ (6 : Seg).val < 7 ∧ 7 ≤ (7 : Seg).val ∧
    chipBase 3 = 0 ∧ chipBase 4 = 16 ∧ chipBase 7 = 16 ∧ chipBase 8 = 32 ∧ chipBase 11 = 32 ∧
    chipBase 12 = 48 ∧ chipBase 15 = 48 := by decide

theorem witness_SegmentAddressReducedForm : 15 < (fixture 4).ndig := by decide

theorem witness_SegmentAddressesAreInjective :
    (fixture 4).comtab.length = 14 ∧ (fixture 4).DistinctSegments := by decide

/-- The last digit of the chain, the first outside it, and another phase. -/
theorem witness_SegmentQueryResult :
    (clean 4).cfg.Legal ∧ (clean 4).phase = .ready ∧ (0x0F#8).toNat < (clean 4).cfg.ndig ∧
    (clean 4).cfg.ndig ≤ (0x10#8).toNat ∧ (fresh 4).phase ≠ .ready := by decide

theorem witness_RenderSetsExactlyTheLitSegments :
    15 < (clean 4).cfg.ndig ∧ (clean 4).cfg.comtab = comtabOfR86 ∧
    LitBit (clean 4).cfg 0x3FFF 15 60 7 :=
  ⟨by decide, rfl, 13, by decide, by decide⟩

theorem witness_StatusSetsOneBit :
    (0x2E#8 = 0x2E ∨ 0x2E#8 = 0x3A) ∧ (0x3A#8 = 0x2E ∨ 0x3A#8 = 0x3A) ∧
    ({ clean 4 with cursor := 15 } : State).cursor < (clean 4).cfg.ndig := by decide

theorem witness_RenderedDigitMask :
    (clean 1).cfg.comtab.length = 14 ∧ (clean 1).cfg.DistinctSegments ∧ (1 ≠ 0) := by decide

theorem witness_WriteOrdinaryCharacter :
    (clean 1).phase = .ready ∧ isSpecial 0x41 = false ∧ (0x03#8).toNat < (clean 1).cfg.ndig ∧
    (clean 1).cfg.ndig ≤ (0x04#8).toNat := by decide

theorem witness_WriteSpecialCharacter :
    ({ clean 4 with cursor := 15 } : State).phase = .ready ∧
    ({ clean 4 with cursor := 15 } : State).cursor < (clean 4).cfg.ndig ∧
    isSpecial 0x2E = true ∧ isSpecial 0x3A = true := by decide

theorem witness_WritesAccumulate :
    Invariants (clean 1) ∧ (clean 1).cfg.DistinctSegments ∧ (clean 1).phase = .ready ∧
    isSpecial 0x41 = false ∧ isSpecial 0x42 = false ∧ (0x03#8).toNat < (clean 1).cfg.ndig :=
  ⟨witness_invariants 1 (.inl rfl), by decide, by decide, by decide, by decide, by decide⟩

theorem witness_ClearResult :
    (clean 4).phase = .ready ∧ 63 < (clean 4).cfg.imgsz ∧ 3 < (clean 4).cfg.n ∧
    (fresh 4).phase ≠ .ready := by decide

theorem witness_FlushResult : (clean 4).phase = .ready ∧ (fresh 4).phase ≠ .ready := by decide

theorem witness_WriteByteOrdinary :
    ({ clean 1 with cursor := 3 } : State).phase = .ready ∧
    ({ clean 1 with cursor := 3 } : State).cursor < (clean 1).cfg.ndig ∧
    isSpecial 0x41 = false := by decide

theorem witness_WriteByteSpecial :
    ({ clean 4 with cursor := 15 } : State).phase = .ready ∧
    ({ clean 4 with cursor := 15 } : State).cursor < (clean 4).cfg.ndig ∧
    isSpecial 0x3A = true := by decide

/-- With a stream longer than the chain: each clause about positions has an instance. -/
theorem witness_StreamResult :
    (ready 1).cfg.Legal ∧ (ready 1).phase = .ready ∧ 15 < (ready 1).cfg.imgsz ∧
    (ordinaries [0x41, 0x2E, 0x42, 0x42, 0x42, 0x45]).length = 5 ∧
    (1 < 5 ∧ 5 ≤ 1 + (ready 1).cfg.ndig) ∧ (ready 1).cfg.ndig ≤ 4 ∧
    (ordinaries [0x41]).length ≤ 1 := by decide

theorem witness_StreamTextLandsOnItsDigits :
    (ready 1).cfg.Legal ∧ (ready 1).cfg.DistinctSegments ∧ (ready 1).phase = .ready ∧
    (∀ c ∈ [0x54#8, 0x45, 0x53, 0x54], isSpecial c = false) ∧
    [0x54#8, 0x45, 0x53, 0x54].length ≤ (ready 1).cfg.ndig ∧
    [0x41#8, 0x42].length ≤ 2 ∧ 2 < (ready 1).cfg.ndig := by decide

theorem witness_EmptyStreamIsClear : (fresh 1).phase ≠ .ready := by decide

theorem witness_StreamsForgetTheImage :
    Invariants (clean 1) ∧ Invariants { clean 1 with img := [(15, 0xFF)] } ∧
    (0x03#8).toNat < (clean 1).cfg.ndig :=
  ⟨witness_invariants 1 (.inl rfl),
    ⟨by decide, by decide, by decide, by decide, by decide, by decide, by decide, fun _ h => nomatch h⟩,
    by decide⟩

theorem witness_ShiftStreamsAShiftedSnapshot : (0x03#8).toNat < withTest.cfg.ndig := by decide

theorem witness_ShiftLeftResult :
    withTest.cfg.Legal ∧ withTest.cfg.DistinctSegments ∧ withTest.phase = .ready ∧
    (0x03#8).toNat < withTest.cfg.ndig ∧
    (∀ i < withTest.cfg.ndig, isSpecial (shadowRead withTest i) = false) ∧
    0 + (0x03#8).toNat < withTest.cfg.ndig ∧ withTest.cfg.ndig ≤ 1 + (0x03#8).toNat := by decide

theorem witness_ShiftRightResult :
    withTest.cfg.Legal ∧ withTest.cfg.DistinctSegments ∧ withTest.phase = .ready ∧
    (0x03#8).toNat < withTest.cfg.ndig ∧
    (∀ i < withTest.cfg.ndig, isSpecial (shadowRead withTest i) = false) ∧
    (0x03#8).toNat ≤ 3 ∧ 2 < (0x03#8).toNat := by decide

theorem witness_LargeShiftIsRejected :
    (clean 1).phase = .ready ∧ (clean 1).cfg.ndig ≤ (0x04#8).toNat ∧ (fresh 1).phase ≠ .ready := by
  decide

theorem witness_InitResult : (fresh 1).phase = .uninit ∧ (clean 1).phase ≠ .uninit := by decide

/-- A command that flushes, a shift at each side of its bound, and a write that does not. -/
theorem witness_OnlyFlushingCommandsReachTheChips :
    (∃ t, exec (.shl 0x03) withTest = .next t) ∧ flushes withTest.cfg (.shl 0x03) = true ∧
    (∃ t, exec (.shl 0x04) withTest = .next t) ∧ flushes withTest.cfg (.shl 0x04) = false ∧
    ∃ t, exec (.wrchar 0x41 0x00) withTest = .next t :=
  ⟨exists_next (by decide), by decide, exists_next (by decide), by decide, exists_next (by decide)⟩

theorem witness_PayloadIsTheChipBlock :
    (∃ t, exec .flush (clean 4) = .next t ∧
      .busWrite 3 0x73 (List.replicate 16 0x00) true ∈ t.trace) ∧
    (∃ t, exec .init (fresh 1) = .next t) ∧ Invariants (clean 4) ∧ 16 * (clean 4).cfg.n ≤ 64 :=
  ⟨⟨_, rfl, by decide⟩, exists_next (by decide), witness_invariants 4 (.inr rfl), by decide⟩

/-- The last chip of the chain, and the first number outside it. -/
theorem witness_ChipMemoryFollowsTheFlush :
    (∃ t, exec .clear (clean 4) = .next t) ∧ flushes (clean 4).cfg .clear = true ∧
    3 < (clean 4).cfg.n ∧ (clean 4).cfg.n ≤ 4 ∧
    (∃ t, exec (.glyphq 0x41) (clean 4) = .next t) ∧ flushes (clean 4).cfg (.glyphq 0x41) = false :=
  ⟨exists_next (by decide), by decide, by decide, by decide, exists_next (by decide), by decide⟩

theorem witness_AnswersReachOnlyOkAndTrace :
    (Instr.flush ≠ .init) ∧ ∃ t, exec .flush (clean 4) = .next t :=
  ⟨by decide, exists_next (by decide)⟩

theorem witness_MemoryLaws :
    (clean 1).img.wf = true ∧ Memory.wf [(3, 0x01), (15, 0x02)] = true ∧ (15 ≠ 3) := by decide

/-- A fault; an item of the list with each outcome; presented bytes with each outcome; bytes with and
without a length; a run without a mark; and an ended one. -/
theorem witness_RunsKeepTheirMarks :
    (runFrom (clean 1) [.bytes [0x10, 0x41, 0x04]]).advance.fault = some .digitRange ∧
    ((runFrom (fresh 1) [.bytes [0x02, 0x01], .command .clear]).fault = none ∧
      (fresh 1).input = [] ∧
      (runFrom (fresh 1) [.bytes [0x02, 0x01], .command .clear]).program =
        .bytes [0x02, 0x01] :: [.command .clear] ∧
      refusedFor (presentationOutcome (.bytes [0x02, 0x01]) (fresh 1)) = some .notReady) ∧
    faultOf (presentationOutcome (.bytes [0x41, 0x00, 0x04, 0x02]) (clean 1)) = some .digitRange ∧
    (stateAfter (presentationOutcome (.bytes [0x20, 0x04, 0x02]) (clean 1))).isSome = true ∧
    refusedFor (step { clean 1 with input := [0x41, 0x0E, 0x00, 0x02] }) = some .invalidOperand ∧
    faultOf (step { clean 1 with input := [0x41, 0x00, 0x04, 0x02] }) = some .digitRange ∧
    (stateAfter (step { clean 1 with input := [0x20, 0x04, 0x02] })).isSome = true ∧
    commandLength [0x41, 0x0E, 0x00, 0x02] = some 3 ∧ commandLength [0xFF, 0x02] = none ∧
    ((runFrom (clean 1) [.bytes [0x02, 0x03]]).run (1 + 1)).unmarked = true ∧
    (runFrom (clean 1) []).ended = true := by decide

/-! ## Runs (95_test_vectors.md section 4) -/

/-- P6: after a failed INIT the run goes on to its end with two refusals, and it is not good. -/
theorem test_run_P6 :
    let r := (runOf (fixture 1) [.bytes (bytesOf [0x01, 0x12, 0x02, 0x41, 0x42, 0x01])] [false]).finish
    (r.ended, r.good, r.refusals, r.state.phase, r.state.trace) =
      (true, false, [.notReady, .alreadyInitialised], .failed, [.initAttempt false]) := by decide

/-- P5: the fault stops the run before FLUSH, so it never ends. -/
theorem test_run_P5 :
    let r := (runFrom (ready 1) [.command .clear, .command (.wrchar 0x41 0x04),
      .command .flush]).finish
    (r.ended, r.good, r.fault, r.state.ok, r.state.trace.length) =
      (false, false, some .digitRange, true, 1) := by decide

/-- V79 and V82 joined: an illegal segment ends its own three bytes only, and a good run needs its end. -/
theorem test_run_illegal_operand :
    let r := runFrom (clean 1) [.bytes (bytesOf [0x41, 0x0E, 0x00, 0x20, 0x04, 0x40, 0x7F])]
    (r.good, r.finish.ended, r.finish.refusals, r.finish.state.res0) =
      (false, true, [.invalidOperand], 0x3FFF) := by decide

end Sys2Proof.Tests
end

section
/-! PROOFS. The configuration record of 00_scope.md R3: no command changes it, and the one at reset is a
legal record with the table of 41_segment_address.md R86. -/

namespace Sys2Proof.Machine

/-! ## No command changes it -/

/-- INIT writes OK, PHASE and TRACE, a flushing command what `FlushedFrom` lists, every other one image,
overrides and registers; the record is in none of the three. -/
theorem exec_keeps_cfg {i : Instr} {s t : State} (h : exec i s = .next t) : t.cfg = s.cfg := by
  rcases exec_next_shape h with ⟨-, -, rfl⟩ | ⟨-, flushed, -⟩ | ⟨-, frame, -⟩
  · rfl
  · rw [flushed]
  · rw [frame]

theorem step_keeps_cfg {s t : State} (h : step s = .next t) : t.cfg = s.cfg := by
  rcases step_cases s with ⟨-, idle⟩ | ⟨r, -, -, invalid⟩ | ⟨i, rest, -, runs⟩
  · cases idle.symm.trans h; rfl
  · cases invalid.symm.trans h
  · rw [exec_keeps_cfg (runs.symm.trans h), setInput_cfg]

/-! ## The record at reset -/

@[simp] theorem romWith_length (entry : Nat → Mask14) : (romWith entry).length = 96 := by
  simp [romWith]

theorem romWith_getElem (entry : Nat → Mask14) (i : Nat) (h : i < (romWith entry).length) :
    (romWith entry)[i] =
      if i = 0 ∨ i = 14 ∨ i = 26 then 0x0000#14 else if i = 95 then 0x3FFF#14 else entry i := by
  simp [romWith]

theorem otherOffset_ne (dec : Fin 16) (x : Nat) : otherOffset dec x ≠ dec := by
  unfold otherOffset
  split_ifs with h
  · simp
  · exact h

theorem thisConfig_chain_length : thisConfig.n = Config.freeChainLength % 4 + 1 := by
  simp [Config.n, thisConfig]

/-- The folding of the free values keeps each inside the range R3 gives it, whatever they are. -/
theorem thisConfig_legal : thisConfig.Legal := by
  refine ⟨?chain, ?rom, rfl, otherOffset_ne _ _⟩
  case chain => rw [thisConfig_chain_length]; omega
  case rom => simp [thisConfig, romWith_getElem]

theorem comtabOfR86_nodup : comtabOfR86.Nodup := by decide

theorem segEntry_comtabOfR86 {cfg : Config} (h : cfg.comtab = comtabOfR86) (g : Seg) :
    (segEntry cfg g).common.val = g.val % 7 ∧
    halfOffset (segEntry cfg g).half = if g.val < 7 then 0 else 4 := by
  unfold segEntry
  rw [h]
  revert g
  decide

end Sys2Proof.Machine

open Sys2Proof.Machine

/-- Settles O13: every step is idle, refused, or one command, which keeps the record. -/
theorem configurationNeverChanges : Obligations.ConfigurationNeverChanges :=
  fun _ _ => step_keeps_cfg

/-- Settles O10: reset holds `thisConfig`, legal for every choice of the free values, and its COMTAB is
the literal table. -/
theorem configurationOfThisHardware : Obligations.ConfigurationOfThisHardware :=
  ⟨thisConfig_legal, comtabOfR86_nodup, segEntry_comtabOfR86 rfl⟩

end

section
/-! PROOFS. The state of 10_state.md: what reset gives, what every step keeps (R23), and which command writes
which part of the state. -/

namespace Sys2Proof.Machine

/-! ## Every operation keeps the invariants (10_state.md R23)

One rule per update of the state; the procedures and then the commands are put together from these. -/

theorem Invariants.ndig_pos {s : State} (h : Invariants s) : 0 < s.cfg.ndig :=
  Nat.zero_lt_of_lt h.cursor

theorem Invariants.setOk {s : State} (b : Bool) (h : Invariants s) : Invariants (setOk b s) := { h with }

theorem Invariants.setRes0 {s : State} (r : BitVec 16) (h : Invariants s) : Invariants (setRes0 r s) :=
  { h with }

theorem Invariants.setRes1 {s : State} (r : BitVec 8) (h : Invariants s) : Invariants (setRes1 r s) :=
  { h with }

theorem Invariants.setPhase {s : State} (p : Phase) (h : Invariants s) : Invariants (setPhase p s) :=
  { h with }

theorem Invariants.setInput {s : State} (bs : List Byte) (h : Invariants s) :
    Invariants (setInput bs s) := { h with }

theorem Invariants.answerDrawn {s : State} (h : Invariants s) : Invariants (answerDrawn s) := { h with }

theorem Invariants.setImg {s : State} {m : Memory} (h : Invariants s) (canonical : m.wf = true)
    (inside : m.within s.cfg.imgsz = true) : Invariants (setImg m s) :=
  { h with imgWf := canonical, imgWithin := inside }

theorem Invariants.setCursor {s : State} {c : Nat} (h : Invariants s) (inside : c < s.cfg.ndig) :
    Invariants (setCursor c s) := { h with cursor := inside }

theorem Invariants.shadowWrite {s : State} {i : Nat} (c : Byte) (h : Invariants s)
    (inside : i < s.cfg.ndig) : Invariants (shadowWrite i c s) :=
  { h with
    shadowWf := Memory.wf_write i c h.shadowWf
    shadowWithin := Memory.within_write c inside h.shadowWithin }

theorem Invariants.addOverride {s : State} {e : Override} (h : Invariants s)
    (legal : 1 ≤ e.index ∧ e.index ≤ 94) : Invariants (setOvr (s.ovr ++ [e]) s) :=
  { h with ovr := List.forall_mem_append.2 ⟨h.ovr, List.forall_mem_singleton.2 legal⟩ }

theorem Invariants.logEvent {s : State} {e : Event} (h : Invariants s) (legal : EventLegal s.cfg e) :
    Invariants (logEvent e s) :=
  { h with trace := List.forall_mem_append.2 ⟨h.trace, List.forall_mem_singleton.2 legal⟩ }

theorem Invariants.advanceCursor {s : State} (h : Invariants s) : Invariants (advanceCursor s) :=
  h.setCursor (advance_lt h.cursor)

/-- The start of CLEAR and of every stream: the image zeroed, the cursor home. -/
theorem Invariants.home {s : State} (h : Invariants s) : Invariants (Machine.setCursor 0 (zeroImage s)) :=
  (h.setImg (wf_zeroBelow _ h.imgWf) (within_zeroBelow h.imgWithin)).setCursor h.ndig_pos

theorem Invariants.put {c : Byte} {d : Nat} {s t : State} (h : Invariants s)
    (ht : put c d s = .ok t) : Invariants t := by
  rw [put_eq_setImg ht]
  exact h.setImg (put_wf ht h.imgWf) (put_within ht h.imgWithin)

theorem Invariants.recordAndAdvance {s : State} (c : Byte) (h : Invariants s) :
    Invariants (recordAndAdvance c s) := by
  cases special : isSpecial c
  · rw [recordAndAdvance_ordinary s special]
    exact (h.shadowWrite c h.cursor).advanceCursor
  · rwa [recordAndAdvance_special s special]

theorem Invariants.streamChars {cs : List Byte} {s u : State} (h : Invariants s)
    (hu : streamChars cs s = .ok u) : Invariants u :=
  streamChars_keeps Invariants (fun c _ _ hs ht => (hs.put ht).recordAndAdvance c) hu h

/-- `CHAIN[k]` for a chip of the chain (00_scope.md R3). -/
theorem chain_getElem?_eq_chipAddress {s : State} {k : Nat} (hk : k < s.cfg.n) :
    s.cfg.chain[k]? = some (chipAddress s k) := by
  simp [chipAddress, List.getD_eq_getElem?_getD, List.getElem?_eq_getElem hk]

theorem flushEvents_legal (s t : State) : ∀ e ∈ flushEvents s t, EventLegal s.cfg e := by
  intro e he
  obtain ⟨k, hk, rfl⟩ := List.mem_map.1 he
  have inChain : k < s.cfg.n := List.mem_range.1 hk
  exact ⟨inChain, chain_getElem?_eq_chipAddress inChain, chipBlock_length t k⟩

@[simp] theorem completeWithFlush_trace (s : State) :
    (completeWithFlush s).trace = s.trace ++ flushEvents s s := by
  simp [completeWithFlush, flush_eq]

/-- A flush leaves everything the invariants speak of as it is but TRACE, which it makes longer by
legal events. -/
theorem Invariants.completeWithFlush {s : State} (h : Invariants s) :
    Invariants (completeWithFlush s) where
  cfg := by simpa using h.cfg
  cursor := by simpa using h.cursor
  ovr := by simpa using h.ovr
  imgWf := by simpa using h.imgWf
  imgWithin := by simpa using h.imgWithin
  shadowWf := by simpa using h.shadowWf
  shadowWithin := by simpa using h.shadowWithin
  trace := by
    rw [completeWithFlush_trace, completeWithFlush_cfg]
    exact List.forall_mem_append.2 ⟨h.trace, flushEvents_legal s s⟩

theorem Invariants.stream {cs : List Byte} {s t : State} (h : Invariants s)
    (ht : stream cs s = .next t) : Invariants t := by
  obtain ⟨u, hu, rfl⟩ := stream_next.1 ht
  exact (h.home.streamChars hu).completeWithFlush

/-- The characters '!'..'~' are those with the indices 1..94 (40_glyph_rom.md R75). -/
theorem index_of_isDefinable {c : Byte} (h : isDefinable c = true) :
    1 ≤ c.toNat - 0x20 ∧ c.toNat - 0x20 ≤ 94 := by
  have range : 0x21 ≤ c.toNat ∧ c.toNat ≤ 0x7E := of_decide_eq_true h
  omega

theorem Invariants.exec {i : Instr} {s t : State} (h : Invariants s) (ht : exec i s = .next t) :
    Invariants t := by
  cases i with
  | init =>
    obtain ⟨-, rfl⟩ := execInit_next.1 ht
    exact ((h.answerDrawn.logEvent trivial).setPhase _).setOk _
  | clear =>
    obtain ⟨-, rfl⟩ := execClear_next.1 ht
    exact h.home.completeWithFlush
  | flush =>
    obtain ⟨-, rfl⟩ := execFlush_next.1 ht
    exact h.completeWithFlush
  | wrchar c d =>
    obtain ⟨-, u, hu, rfl⟩ := execWrchar_next.1 ht
    exact (h.put hu).setOk _
  | wrbyte c =>
    obtain ⟨-, u, hu, rfl⟩ := execWrbyte_next.1 ht
    refine Invariants.completeWithFlush ?_
    split_ifs
    · exact h.put hu
    · exact (h.put hu).advanceCursor
  | wrstream cs => exact h.stream (execWrstream_next.1 ht).2
  | shl n =>
    obtain ⟨-, ⟨-, streamed⟩ | ⟨-, rfl⟩⟩ := execShl_next.1 ht
    · exact h.stream streamed
    · exact h.setOk _
  | shr n =>
    obtain ⟨-, ⟨-, streamed⟩ | ⟨-, rfl⟩⟩ := execShr_next.1 ht
    · exact h.stream streamed
    · exact h.setOk _
  | defglyph c m =>
    obtain ⟨-, ⟨definable, rfl⟩ | ⟨-, rfl⟩⟩ := execDefglyph_next.1 ht
    · exact (h.addOverride (index_of_isDefinable definable)).setOk _
    · exact h.setOk _
  | glyphq c =>
    obtain ⟨-, rfl⟩ := execGlyphq_next.1 ht
    exact (h.setRes0 _).setOk _
  | segq g d =>
    obtain ⟨-, -, rfl⟩ := execSegq_next.1 ht
    exact ((h.setRes0 _).setRes1 _).setOk _

/-- A completed step is idle or ran one command. -/
theorem step_next {s t : State} (h : step s = .next t) :
    t = s ∨ ∃ i rest, exec i (setInput rest s) = .next t := by
  rcases step_cases s with ⟨-, idle⟩ | ⟨r, -, -, invalid⟩ | ⟨i, rest, -, runs⟩
  · cases idle.symm.trans h
    exact .inl rfl
  · cases invalid.symm.trans h
  · exact .inr ⟨i, rest, runs.symm.trans h⟩

theorem Invariants.step {s t : State} (h : Invariants s) (ht : step s = .next t) : Invariants t := by
  rcases step_next ht with rfl | ⟨i, rest, runs⟩
  · exact h
  · exact (h.setInput rest).exec runs

/-- The chain has at least one chip, so position 0 is inside it; both stores are empty. -/
theorem invariants_reset : Invariants State.reset where
  cfg := thisConfig_legal
  cursor := by
    have chips : thisConfig.n = Config.freeChainLength % 4 + 1 := thisConfig_chain_length
    show 0 < 4 * thisConfig.n
    omega
  ovr := List.forall_mem_nil _
  imgWf := rfl
  imgWithin := rfl
  shadowWf := rfl
  shadowWithin := rfl
  trace := List.forall_mem_nil _

/-! ## What the commands without a flush do -/

/-- The next states of the commands that neither initialise nor flush, one constructor per command and
answer. A rejected command leaves all but OK as it was. -/
inductive QuietEffect (s : State) : Instr → State → Prop
  | written {c d : Byte} {u : State} (h : put c d.toNat s = .ok u) :
      QuietEffect s (.wrchar c d) (setOk true u)
  | defined {c : Byte} {m : BitVec 16} (h : isDefinable c = true) :
      QuietEffect s (.defglyph c m)
        (setOk true (setOvr (s.ovr ++ [⟨c.toNat - 0x20, keptMask m⟩]) s))
  | glyphRead {c : Byte} :
      QuietEffect s (.glyphq c) (setOk true (setRes0 ((glyph s c).setWidth 16) s))
  | segmentRead {g : Seg} {d : Byte} (h : d.toNat < s.cfg.ndig) :
      QuietEffect s (.segq g d) (setOk true (setRes1 (segaddr s.cfg g d.toNat).2
        (setRes0 (BitVec.ofNat 16 (segaddr s.cfg g d.toNat).1) s)))
  | glyphRejected {c : Byte} {m : BitVec 16} (h : isDefinable c = false) :
      QuietEffect s (.defglyph c m) (setOk false s)
  | shlRejected {n : Byte} (h : s.cfg.ndig ≤ n.toNat) : QuietEffect s (.shl n) (setOk false s)
  | shrRejected {n : Byte} (h : s.cfg.ndig ≤ n.toNat) : QuietEffect s (.shr n) (setOk false s)

/-- The three ways to a next state, told apart by `flushes`: INIT, a flush of the final image, or a
quiet effect. -/
theorem exec_next_effect {i : Instr} {s t : State} (h : exec i s = .next t) :
    (i = .init ∧ t = setOk (nextAnswer s) (setPhase (phaseAfterInit (nextAnswer s))
      (logEvent (.initAttempt (nextAnswer s)) (answerDrawn s)))) ∨
    (flushes s.cfg i = true ∧ FlushedFrom s t) ∨
    (flushes s.cfg i = false ∧ QuietEffect s i t) := by
  rcases exec_next_shape h with ⟨isInit, -, effect⟩ | ⟨-, flushed, which⟩ | ⟨-, -, which⟩
  · exact .inl ⟨isInit, effect⟩
  · refine .inr (.inl ⟨?_, flushed⟩)
    rcases which with rfl | rfl | ⟨c, rfl⟩ | ⟨cs, rfl⟩ | ⟨n, rfl, hn⟩ | ⟨n, rfl, hn⟩
    · rfl
    · rfl
    · rfl
    · rfl
    · exact decide_eq_true hn
    · exact decide_eq_true hn
  · refine .inr (.inr ?_)
    rcases which with ⟨c, d, rfl⟩ | ⟨c, m, rfl⟩ | ⟨c, rfl⟩ | ⟨g, d, rfl⟩ | ⟨n, rfl, hn⟩ | ⟨n, rfl, hn⟩
    · obtain ⟨-, u, hu, rfl⟩ := execWrchar_next.1 h
      exact ⟨rfl, .written hu⟩
    · obtain ⟨-, ⟨hc, rfl⟩ | ⟨hc, rfl⟩⟩ := execDefglyph_next.1 h
      · exact ⟨rfl, .defined hc⟩
      · exact ⟨rfl, .glyphRejected hc⟩
    · obtain ⟨-, rfl⟩ := execGlyphq_next.1 h
      exact ⟨rfl, .glyphRead⟩
    · obtain ⟨-, hd, rfl⟩ := execSegq_next.1 h
      exact ⟨rfl, .segmentRead hd⟩
    · obtain ⟨-, ⟨accepted, -⟩ | ⟨-, rfl⟩⟩ := execShl_next.1 h
      · exact absurd accepted hn.not_gt
      · exact ⟨decide_eq_false hn.not_gt, .shlRejected hn⟩
    · obtain ⟨-, ⟨accepted, -⟩ | ⟨-, rfl⟩⟩ := execShr_next.1 h
      · exact absurd accepted hn.not_gt
      · exact ⟨decide_eq_false hn.not_gt, .shrRejected hn⟩

/-! ## Which command writes which part of the state -/

theorem exec_keeps_phase {i : Instr} {s t : State} (h : exec i s = .next t) (hi : i ≠ .init) :
    t.phase = s.phase := by
  rcases exec_next_shape h with ⟨isInit, -, -⟩ | ⟨-, flushed, -⟩ | ⟨-, frame, -⟩
  · exact absurd isInit hi
  · rw [flushed]
  · rw [frame]

theorem phaseAfterInit_cases (ok : Bool) :
    phaseAfterInit ok = .ready ∨ phaseAfterInit ok = .failed := by
  cases ok
  · exact .inr rfl
  · exact .inl rfl

theorem execInit_phase {s t : State} (h : execInit s = .next t) :
    s.phase = .uninit ∧ (t.phase = .ready ∨ t.phase = .failed) := by
  obtain ⟨uninit, rfl⟩ := execInit_next.1 h
  exact ⟨uninit, phaseAfterInit_cases (nextAnswer s)⟩

/-- PHASE stays once INIT has left UNINIT: there INIT cannot run again. -/
theorem step_keeps_phase {s t : State} (h : step s = .next t) (left : s.phase ≠ .uninit) :
    t.phase = s.phase := by
  rcases step_next h with rfl | ⟨i, rest, runs⟩
  · rfl
  · have notInit : i ≠ .init := by
      rintro rfl
      exact left (execInit_phase runs).1
    rw [exec_keeps_phase runs notInit, setInput_phase]

/-- Only an accepted DEFGLYPH writes the overrides, and it appends one. -/
theorem exec_ovr {i : Instr} {s t : State} (h : exec i s = .next t) :
    t.ovr = s.ovr ∨ ∃ c m, i = .defglyph c m ∧ isDefinable c = true ∧
      t.ovr = s.ovr ++ [⟨c.toNat - 0x20, keptMask m⟩] := by
  rcases exec_next_effect h with ⟨-, rfl⟩ | ⟨-, flushed⟩ | ⟨-, quiet⟩
  · exact .inl rfl
  · exact .inl (by rw [flushed])
  · cases quiet with
    | written hu => exact .inl (by rw [setOk_ovr, put_ovr hu])
    | defined hc => exact .inr ⟨_, _, rfl, hc, rfl⟩
    | glyphRead | segmentRead | glyphRejected | shlRejected | shrRejected => exact .inl rfl

theorem exec_keeps_shadow {i : Instr} {s t : State} (h : exec i s = .next t)
    (notStream : ∀ cs, i ≠ .wrstream cs) (notShl : ∀ n, i ≠ .shl n) (notShr : ∀ n, i ≠ .shr n) :
    t.shadow = s.shadow := by
  cases i with
  | init => obtain ⟨-, rfl⟩ := execInit_next.1 h; rfl
  | clear => obtain ⟨-, rfl⟩ := execClear_next.1 h; exact completeWithFlush_shadow _
  | flush => obtain ⟨-, rfl⟩ := execFlush_next.1 h; exact completeWithFlush_shadow _
  | wrchar c d => obtain ⟨-, u, hu, rfl⟩ := execWrchar_next.1 h; rw [setOk_shadow, put_shadow hu]
  | wrbyte c =>
    obtain ⟨-, u, hu, rfl⟩ := execWrbyte_next.1 h
    rw [completeWithFlush_shadow, ← put_shadow hu]
    split_ifs <;> rfl
  | wrstream cs => exact absurd rfl (notStream cs)
  | shl n => exact absurd rfl (notShl n)
  | shr n => exact absurd rfl (notShr n)
  | defglyph c m => obtain ⟨-, ⟨-, rfl⟩ | ⟨-, rfl⟩⟩ := execDefglyph_next.1 h <;> rfl
  | glyphq c => obtain ⟨-, rfl⟩ := execGlyphq_next.1 h; rfl
  | segq g d => obtain ⟨-, -, rfl⟩ := execSegq_next.1 h; rfl

theorem exec_keeps_results {i : Instr} {s t : State} (h : exec i s = .next t)
    (notSegq : ∀ g d, i ≠ .segq g d) :
    t.res1 = s.res1 ∧ ((∀ c, i ≠ .glyphq c) → t.res0 = s.res0) := by
  rcases exec_next_effect h with ⟨-, rfl⟩ | ⟨-, flushed⟩ | ⟨-, quiet⟩
  · exact ⟨rfl, fun _ => rfl⟩
  · rw [flushed]
    exact ⟨rfl, fun _ => rfl⟩
  · cases quiet with
    | written hu =>
      rw [put_eq_setImg hu]
      exact ⟨rfl, fun _ => rfl⟩
    | glyphRead => exact ⟨rfl, fun notGlyphq => absurd rfl (notGlyphq _)⟩
    | segmentRead => exact absurd rfl (notSegq _ _)
    | defined | glyphRejected | shlRejected | shrRejected => exact ⟨rfl, fun _ => rfl⟩

/-! ## The table of 94 entries (10_state.md R16) -/

@[simp] theorem tableWrite_length (t : List (Option Mask14)) (e : Override) :
    (tableWrite t e).length = t.length := by
  unfold tableWrite
  split_ifs
  · rfl
  · exact List.length_set

@[simp] theorem tableOf_length (ovr : List Override) : (tableOf ovr).length = 94 :=
  foldl_keeps (fun t : List (Option Mask14) => t.length = 94) _ _ _
    (fun t e _ h => (tableWrite_length t e).trans h) List.length_replicate

theorem tableOf_append_singleton (ovr : List Override) (e : Override) :
    tableOf (ovr ++ [e]) = tableWrite (tableOf ovr) e := by
  simp [tableOf]

theorem tableEntry_emptyTable (i : Nat) : tableEntry emptyTable i = none := by
  unfold tableEntry emptyTable
  split_ifs
  · rfl
  · rw [List.getElem?_replicate]
    split_ifs <;> rfl

/-- A write inside the table stores the mask at its own index where nothing is stored, and is dropped
where something is. -/
theorem tableEntry_tableWrite {t : List (Option Mask14)} {e : Override} (low : 1 ≤ e.index)
    (high : e.index ≤ t.length) (i : Nat) :
    tableEntry (tableWrite t e) i =
      (tableEntry t i).or (if e.index = i then some e.mask else none) := by
  unfold tableWrite
  by_cases valid : (tableEntry t e.index).isSome = true
  · rw [if_pos valid]
    by_cases same : e.index = i
    · subst same
      rw [Option.or_of_isSome valid]
    · simp [same]
  · rw [if_neg valid]
    have free : tableEntry t e.index = none := by simpa using valid
    by_cases same : e.index = i
    · subst same
      rw [free, if_pos rfl, Option.none_or, tableEntry, if_neg (by omega),
        List.getElem?_set_self (by omega)]
      rfl
    · rw [if_neg same, Option.or_none]
      unfold tableEntry
      by_cases zero : i = 0
      · simp [zero]
      · simp only [zero, if_false]
        rw [List.getElem?_set_ne (by omega)]

theorem overrideOf_append_singleton (ovr : List Override) (e : Override) (i : Nat) :
    overrideOf (ovr ++ [e]) i =
      (overrideOf ovr i).or (if e.index = i then some e.mask else none) := by
  unfold overrideOf
  rw [List.find?_append, Option.map_or]
  by_cases same : e.index = i <;> simp [same]

theorem overrideOf_eq_tableEntry {ovr : List Override} (legal : OverridesLegal ovr) (i : Nat) :
    overrideOf ovr i = tableEntry (tableOf ovr) i := by
  induction ovr using List.reverseRecOn with
  | nil => exact (tableEntry_emptyTable i).symm
  | append_singleton ovr e ih =>
    obtain ⟨earlier, last⟩ := List.forall_mem_append.1 legal
    obtain ⟨low, high⟩ := last e (List.mem_singleton_self e)
    rw [overrideOf_append_singleton, tableOf_append_singleton,
      tableEntry_tableWrite low (by rwa [tableOf_length]), ih earlier]

/-! ## Commands that zero the image first do not see the old one (10_state.md R22) -/

theorem whenReady_setImg (m : Memory) (s : State) (k : Outcome) :
    whenReady (setImg m s) k = whenReady s k := rfl

theorem shiftedLeft_setImg (n : Nat) (m : Memory) (s : State) :
    shiftedLeft n (setImg m s) = shiftedLeft n s := rfl

theorem shiftedRight_setImg (n : Nat) (m : Memory) (s : State) :
    shiftedRight n (setImg m s) = shiftedRight n s := rfl

theorem execShl_of_accepted {n : Byte} {s : State} (h : n.toNat < s.cfg.ndig) :
    execShl n s = whenReady s (stream (shiftedLeft n.toNat s) s) := by
  simp [execShl, shiftAccepted, h]

theorem execShr_of_accepted {n : Byte} {s : State} (h : n.toNat < s.cfg.ndig) :
    execShr n s = whenReady s (stream (shiftedRight n.toNat s) s) := by
  simp [execShr, shiftAccepted, h]

/-- Canonical images of the chain's size zero to the same data. -/
theorem zeroImage_setImg {s : State} {m : Memory} (h : Invariants s) (h' : Invariants (setImg m s)) :
    zeroImage (setImg m s) = zeroImage s :=
  congrArg (fun img => setImg img s) (zeroBelow_eq h'.imgWf h.imgWf h'.imgWithin h.imgWithin)

theorem execClear_setImg {s : State} {m : Memory} (h : Invariants s) (h' : Invariants (setImg m s)) :
    execClear (setImg m s) = execClear s := by
  unfold execClear
  rw [zeroImage_setImg h h', whenReady_setImg]

theorem stream_setImg {s : State} {m : Memory} (h : Invariants s) (h' : Invariants (setImg m s))
    (cs : List Byte) : stream cs (setImg m s) = stream cs s := by
  unfold stream
  rw [zeroImage_setImg h h']

/-! ## The chips' memories under a flush (10_state.md R20) -/

theorem chipMemory_append (k : Nat) (before after : List Event) :
    chipMemory k (before ++ after) = after.foldl (chipAfter k) (chipMemory k before) :=
  List.foldl_append

/-- Of the events of one flush the k-th alone bears on chip k. -/
theorem chipAfter_flushEvents (s t : State) (k : Nat) (before : Option (List Byte)) :
    (flushEvents s t).foldl (chipAfter k) before =
      if k < s.cfg.n then (if answerAt s k then some (chipBlock t k) else none) else before := by
  unfold flushEvents
  generalize s.cfg.n = n
  induction n with
  | zero => rfl
  | succ n ih =>
    rw [List.range_succ, List.map_append, List.foldl_append, ih]
    simp only [List.map_cons, List.map_nil, List.foldl_cons, List.foldl_nil, chipAfter]
    rcases Nat.lt_trichotomy k n with lt | rfl | gt
    · rw [if_neg lt.ne', if_pos lt, if_pos (Nat.lt_succ_of_lt lt)]
    · rw [if_pos rfl, if_pos (Nat.lt_succ_self k)]
    · rw [if_neg gt.ne, if_neg gt.not_gt, if_neg (Nat.not_lt.2 gt)]

theorem FlushedFrom.chipMemory {s t : State} (h : FlushedFrom s t) (k : Nat) :
    chipMemory k t.trace =
      if k < s.cfg.n then (if answerAt s k then some (chipBlock t k) else none)
      else Machine.chipMemory k s.trace := by
  have grown : t.trace = s.trace ++ flushEvents s t := congrArg State.trace h
  rw [grown, chipMemory_append, chipAfter_flushEvents]

/-- Without a flush TRACE gains no write, so no memory changes; INIT's attempt reaches no memory. -/
theorem exec_chipMemory_of_quiet {i : Instr} {s t : State} (h : exec i s = .next t)
    (quiet : flushes s.cfg i = false) (k : Nat) : chipMemory k t.trace = chipMemory k s.trace := by
  rcases exec_next_effect h with ⟨-, rfl⟩ | ⟨flushing, -⟩ | ⟨-, effect⟩
  · exact chipMemory_append k s.trace _
  · rw [quiet] at flushing; cases flushing
  · cases effect with
    | written hu => rw [put_eq_setImg hu]; rfl
    | defined | glyphRead | segmentRead | glyphRejected | shlRejected | shrRejected => rfl

theorem exec_flushedFrom {i : Instr} {s t : State} (h : exec i s = .next t)
    (flushing : flushes s.cfg i = true) : FlushedFrom s t := by
  rcases exec_next_effect h with ⟨rfl, -⟩ | ⟨-, flushed⟩ | ⟨quiet, -⟩
  · cases flushing
  · exact flushed
  · rw [quiet] at flushing; cases flushing

end Sys2Proof.Machine

open Sys2Proof Sys2Proof.Machine

/-- Settles O12: every operation a command is made of keeps the invariants, so the command does. -/
theorem stepKeepsTheInvariants : Obligations.StepKeepsTheInvariants :=
  fun _ _ => Invariants.step

/-- Settles O14: INIT alone writes PHASE and is refused outside UNINIT. -/
theorem phaseMovesOnlyByInit : Obligations.PhaseMovesOnlyByInit := by
  refine ⟨fun i s t h => ⟨exec_keeps_phase h, ?_⟩, fun s t => step_keeps_phase⟩
  rintro rfl
  exact execInit_phase h

/-- Settles O15: an accepted DEFGLYPH appends the override of its character. -/
theorem overridesOnlyGrow : Obligations.OverridesOnlyGrow := by
  intro i s t h
  rcases exec_ovr h with same | ⟨c, m, rfl, definable, grown⟩
  · exact .inl same
  · obtain ⟨low, high⟩ := index_of_isDefinable definable
    exact .inr ⟨c, m, _, rfl, grown, rfl, low, high, rfl⟩

/-- Settles O17: the other commands change the shadow by none of their updates. -/
theorem shadowWrittenOnlyByStreams : Obligations.ShadowWrittenOnlyByStreams :=
  fun _ _ _ => exec_keeps_shadow

/-- Settles O18: neither INIT nor a flush writes a result register, and of the rest only the queries do. -/
theorem resultRegistersWrittenOnlyByQueries : Obligations.ResultRegistersWrittenOnlyByQueries :=
  fun _ _ _ => exec_keeps_results

/-- Settles O30: appending an override and writing the table change every lookup alike. -/
theorem overrideTableIsEquivalent : Obligations.OverrideTableIsEquivalent :=
  fun ovr legal =>
    ⟨tableOf_length ovr, overrideOf_eq_tableEntry legal, tableOf_append_singleton ovr⟩

/-- Settles O48: each of these commands zeroes the image before it reads it. -/
theorem streamsForgetTheImage : Obligations.StreamsForgetTheImage := by
  intro s m i h h'
  rintro (rfl | ⟨cs, rfl⟩ | ⟨n, rfl, accepted⟩ | ⟨n, rfl, accepted⟩)
  · exact execClear_setImg h h'
  · exact congrArg (whenReady s) (stream_setImg h h' cs)
  · show execShl n (setImg m s) = execShl n s
    rw [execShl_of_accepted accepted, execShl_of_accepted (s := setImg m s) accepted,
      stream_setImg h h', whenReady_setImg, shiftedLeft_setImg]
  · show execShr n (setImg m s) = execShr n s
    rw [execShr_of_accepted accepted, execShr_of_accepted (s := setImg m s) accepted,
      stream_setImg h h', whenReady_setImg, shiftedRight_setImg]

/-- Settles O56: a flush sends chip k one block, and no other command sends any. -/
theorem chipMemoryFollowsTheFlush : Obligations.ChipMemoryFollowsTheFlush := by
  intro i s t h k
  constructor
  · intro flushing inChain
    rw [(exec_flushedFrom h flushing).chipMemory, if_pos inChain]
  · intro untouched
    cases flushing : flushes s.cfg i with
    | false => exact exec_chipMemory_of_quiet h flushing k
    | true =>
      have outside : s.cfg.n ≤ k := untouched.resolve_left (by simp [flushing])
      rw [(exec_flushedFrom h flushing).chipMemory, if_neg outside.not_gt]

/-- Settles O9: the fields of `State.reset`, and empty stores and an empty trace hold nothing. -/
theorem resetValues : Obligations.ResetValues :=
  ⟨rfl, rfl, rfl, rfl, rfl, rfl, rfl, fun _ => rfl, fun _ => rfl, fun _ => rfl, rfl, rfl⟩

/-- Settles O11: the record is legal, so position 0 exists, and everything else is empty. -/
theorem resetMeetsTheInvariants : Obligations.ResetMeetsTheInvariants := invariants_reset

end

section
/-! PROOFS. The memory of 20_memory.md: the byte laws, who changes the image, who talks to the chips and what
they are sent, and how far the environment's answers reach. -/

namespace Sys2Proof.Machine

/-! ## A step and its bytes (30_encoding.md R55) -/

theorem step_of_command {s : State} {i : Instr} {rest : List Byte}
    (h : decode s.input = .command i rest) : step s = exec i (setInput rest s) := by
  rcases step_cases s with ⟨idle, -⟩ | ⟨r, -, invalid, -⟩ | ⟨j, after, decoded, runs⟩
  · rw [idle] at h; cases h
  · cases invalid.symm.trans h
  · cases decoded.symm.trans h
    exact runs

theorem step_of_invalid {s : State} {r : Invalid} (presented : s.input ≠ [])
    (h : decode s.input = .invalid r) : step s = .refused (refusalOf r) := by
  rcases step_cases s with ⟨idle, -⟩ | ⟨q, -, invalid, refused⟩ | ⟨i, rest, decoded, -⟩
  · exact absurd idle presented
  · cases invalid.symm.trans h
    exact refused
  · cases decoded.symm.trans h

theorem step_of_no_input {s : State} (h : s.input = []) : step s = .next s := by
  simp [step, fetch, h]

/-! ## Byte laws -/

theorem memRead_memWrite (s : State) (a b : Nat) (v : Byte) :
    memRead (memWrite a v s) b = if b = a then v else memRead s b :=
  readImage_write a b v s.img

theorem memRead_congr {s t : State} (h : t.img = s.img) : memRead t = memRead s := by
  funext a
  simp only [memRead, h]

/-! ## Who changes the image (20_memory.md R30, R35) -/

theorem exec_keeps_img {i : Instr} {s t : State} (h : exec i s = .next t)
    (outside : i = .init ∨ i = .flush ∨ (∃ c m, i = .defglyph c m) ∨ (∃ c, i = .glyphq c) ∨
      ∃ g d, i = .segq g d) : t.img = s.img := by
  rcases outside with rfl | rfl | ⟨c, m, rfl⟩ | ⟨c, rfl⟩ | ⟨g, d, rfl⟩
  · obtain ⟨-, rfl⟩ := execInit_next.1 h; rfl
  · obtain ⟨-, rfl⟩ := execFlush_next.1 h; exact completeWithFlush_img s
  · obtain ⟨-, ⟨-, rfl⟩ | ⟨-, rfl⟩⟩ := execDefglyph_next.1 h <;> rfl
  · obtain ⟨-, rfl⟩ := execGlyphq_next.1 h; rfl
  · obtain ⟨-, -, rfl⟩ := execSegq_next.1 h; rfl

/-- The two commands that write a character over what is there leave the image of one `put`. -/
theorem exec_img_of_put {i : Instr} {s t : State} (h : exec i s = .next t)
    (writes : (∃ c d, i = .wrchar c d) ∨ ∃ c, i = .wrbyte c) :
    ∃ c d u, put c d s = .ok u ∧ t.img = u.img := by
  rcases writes with ⟨c, d, rfl⟩ | ⟨c, rfl⟩
  · obtain ⟨-, u, hu, rfl⟩ := execWrchar_next.1 h
    exact ⟨c, d.toNat, u, hu, rfl⟩
  · obtain ⟨-, u, hu, rfl⟩ := execWrbyte_next.1 h
    refine ⟨c, s.cursor, u, hu, ?_⟩
    rw [completeWithFlush_img]
    split_ifs <;> rfl

/-- The other commands leave the image, or put one character, which sets bits only. -/
theorem exec_sets_only {i : Instr} {s t : State} (h : exec i s = .next t) (notClear : i ≠ .clear)
    (notStream : ∀ cs, i ≠ .wrstream cs) (notShl : ∀ n, i ≠ .shl n) (notShr : ∀ n, i ≠ .shr n)
    (a b : Nat) (bit : (memRead s a).getLsbD b = true) : (memRead t a).getLsbD b = true := by
  have kept (same : t.img = s.img) : (memRead t a).getLsbD b = true := by
    rwa [memRead_congr same]
  have put_kept (writes : ∃ c d u, put c d s = .ok u ∧ t.img = u.img) :
      (memRead t a).getLsbD b = true := by
    obtain ⟨c, d, u, hu, same⟩ := writes
    rw [memRead_congr same]
    exact put_sets_only hu a b (BitVec.lt_of_getLsbD bit) bit
  cases i with
  | init => exact kept (exec_keeps_img h (.inl rfl))
  | clear => exact absurd rfl notClear
  | flush => exact kept (exec_keeps_img h (.inr (.inl rfl)))
  | wrchar c d => exact put_kept (exec_img_of_put h (.inl ⟨c, d, rfl⟩))
  | wrbyte c => exact put_kept (exec_img_of_put h (.inr ⟨c, rfl⟩))
  | wrstream cs => exact absurd rfl (notStream cs)
  | shl n => exact absurd rfl (notShl n)
  | shr n => exact absurd rfl (notShr n)
  | defglyph c m => exact kept (exec_keeps_img h (.inr (.inr (.inl ⟨c, m, rfl⟩))))
  | glyphq c => exact kept (exec_keeps_img h (.inr (.inr (.inr (.inl ⟨c, rfl⟩)))))
  | segq g d => exact kept (exec_keeps_img h (.inr (.inr (.inr (.inr ⟨g, d, rfl⟩)))))

/-! ## Who talks to the chips, and what they are sent (20_memory.md R30, R38) -/

theorem QuietEffect.sends_nothing {i : Instr} {s t : State} (h : QuietEffect s i t) :
    t.trace = s.trace ∧ t.answers = s.answers ∧ t.draws = s.draws := by
  cases h with
  | written hu =>
    rw [put_eq_setImg hu]
    exact ⟨rfl, rfl, rfl⟩
  | defined | glyphRead | segmentRead | glyphRejected | shlRejected | shrRejected =>
    exact ⟨rfl, rfl, rfl⟩

theorem exec_sends_nothing {i : Instr} {s t : State} (h : exec i s = .next t) (notInit : i ≠ .init)
    (quiet : flushes s.cfg i = false) :
    t.trace = s.trace ∧ t.answers = s.answers ∧ t.draws = s.draws := by
  rcases exec_next_effect h with ⟨isInit, -⟩ | ⟨flushing, -⟩ | ⟨-, effect⟩
  · exact absurd isInit notInit
  · rw [quiet] at flushing; cases flushing
  · exact effect.sends_nothing

theorem chipBlock_getElem? (t : State) (k : Nat) {j : Nat} (hj : j < 16) :
    (chipBlock t k)[j]? = some (memRead t (16 * k + j)) := by
  simp [chipBlock, hj]

/-- A write of one flush carries its chip's block of the image pushed. -/
theorem data_of_mem_flushEvents {s t : State} {k : Nat} {addr : Byte} {data : List Byte} {ack : Bool}
    (h : .busWrite k addr data ack ∈ flushEvents s t) : data = chipBlock t k := by
  obtain ⟨j, -, event⟩ := List.mem_map.1 h
  cases event
  rfl

theorem exec_payload {i : Instr} {s t : State} (h : exec i s = .next t) :
    ∃ new, t.trace = s.trace ++ new ∧
      ∀ k addr data ack, .busWrite k addr data ack ∈ new → data = chipBlock t k := by
  rcases exec_next_effect h with ⟨-, rfl⟩ | ⟨-, flushed⟩ | ⟨-, effect⟩
  · exact ⟨[.initAttempt (nextAnswer s)], rfl, by simp⟩
  · exact ⟨flushEvents s t, congrArg State.trace flushed, fun _ _ _ _ => data_of_mem_flushEvents⟩
  · exact ⟨[], by simp [effect.sends_nothing.1], by simp⟩

/-! ## How far the environment's answers reach (20_memory.md R36)

The same run is made beside the first with other coming answers. Until its flush a command does not look at
them, so the two stay `withAnswers` of each other; the flush then parts OK and TRACE as well. -/

/-- The state with other coming answers. -/
def withAnswers (answers : List Bool) (draws : Nat) (s : State) : State :=
  { s with answers := answers, draws := draws }

/-- `u` is `t` but for what the answers reach: OK, TRACE and the answers themselves. -/
def SameButAnswers (t u : State) : Prop :=
  u = { t with ok := u.ok, trace := u.trace, answers := u.answers, draws := u.draws }

theorem put_withAnswers (as : List Bool) (n : Nat) {c : Byte} {d : Nat} {s t : State}
    (h : put c d s = .ok t) : put c d (withAnswers as n s) = .ok (withAnswers as n t) := by
  rcases put_ok.1 h with ⟨special, inside, rfl⟩ | ⟨ordinary, inside, rfl⟩
  · exact put_ok.2 (.inl ⟨special, inside, rfl⟩)
  · exact put_ok.2 (.inr ⟨ordinary, inside, rfl⟩)

theorem recordAndAdvance_withAnswers (as : List Bool) (n : Nat) (c : Byte) (s : State) :
    recordAndAdvance c (withAnswers as n s) = withAnswers as n (recordAndAdvance c s) := by
  unfold recordAndAdvance
  split_ifs <;> rfl

theorem streamChars_withAnswers (as : List Bool) (n : Nat) {cs : List Byte} {s u : State}
    (h : streamChars cs s = .ok u) :
    streamChars cs (withAnswers as n s) = .ok (withAnswers as n u) := by
  induction cs generalizing s with
  | nil => cases h; rfl
  | cons c cs ih =>
    obtain ⟨t, ht, rest⟩ := streamChars_cons h
    have first : put c (withAnswers as n s).cursor (withAnswers as n s) = .ok (withAnswers as n t) :=
      put_withAnswers as n ht
    simp only [streamChars, first, recordAndAdvance_withAnswers]
    exact ih rest

theorem completeWithFlush_withAnswers (as : List Bool) (n : Nat) (s : State) :
    SameButAnswers (completeWithFlush s) (completeWithFlush (withAnswers as n s)) := by
  unfold SameButAnswers completeWithFlush
  rw [flush_eq, flush_eq]
  rfl

theorem stream_withAnswers (as : List Bool) (n : Nat) {cs : List Byte} {s t : State}
    (h : stream cs s = .next t) :
    ∃ u, stream cs (withAnswers as n s) = .next u ∧ SameButAnswers t u := by
  obtain ⟨v, hv, rfl⟩ := stream_next.1 h
  exact ⟨_, stream_next.2 ⟨_, streamChars_withAnswers as n hv, rfl⟩,
    completeWithFlush_withAnswers as n v⟩

theorem exec_withAnswers (as : List Bool) (n : Nat) {i : Instr} {s t : State}
    (h : exec i s = .next t) (notInit : i ≠ .init) :
    ∃ u, exec i (withAnswers as n s) = .next u ∧ SameButAnswers t u := by
  cases i with
  | init => exact absurd rfl notInit
  | clear =>
    obtain ⟨ready, rfl⟩ := execClear_next.1 h
    exact ⟨_, execClear_next.2 ⟨ready, rfl⟩, completeWithFlush_withAnswers as n _⟩
  | flush =>
    obtain ⟨ready, rfl⟩ := execFlush_next.1 h
    exact ⟨_, execFlush_next.2 ⟨ready, rfl⟩, completeWithFlush_withAnswers as n s⟩
  | wrchar c d =>
    obtain ⟨ready, v, hv, rfl⟩ := execWrchar_next.1 h
    exact ⟨_, execWrchar_next.2 ⟨ready, _, put_withAnswers as n hv, rfl⟩, rfl⟩
  | wrbyte c =>
    obtain ⟨ready, v, hv, rfl⟩ := execWrbyte_next.1 h
    refine ⟨_, execWrbyte_next.2 ⟨ready, _, put_withAnswers as n hv, rfl⟩, ?_⟩
    split_ifs <;> exact completeWithFlush_withAnswers as n _
  | wrstream cs =>
    obtain ⟨ready, streamed⟩ := execWrstream_next.1 h
    obtain ⟨u, hu, same⟩ := stream_withAnswers as n streamed
    exact ⟨u, execWrstream_next.2 ⟨ready, hu⟩, same⟩
  | shl m =>
    obtain ⟨ready, ⟨accepted, streamed⟩ | ⟨rejected, rfl⟩⟩ := execShl_next.1 h
    · obtain ⟨u, hu, same⟩ := stream_withAnswers as n streamed
      exact ⟨u, execShl_next.2 ⟨ready, .inl ⟨accepted, hu⟩⟩, same⟩
    · exact ⟨_, execShl_next.2 ⟨ready, .inr ⟨rejected, rfl⟩⟩, rfl⟩
  | shr m =>
    obtain ⟨ready, ⟨accepted, streamed⟩ | ⟨rejected, rfl⟩⟩ := execShr_next.1 h
    · obtain ⟨u, hu, same⟩ := stream_withAnswers as n streamed
      exact ⟨u, execShr_next.2 ⟨ready, .inl ⟨accepted, hu⟩⟩, same⟩
    · exact ⟨_, execShr_next.2 ⟨ready, .inr ⟨rejected, rfl⟩⟩, rfl⟩
  | defglyph c m =>
    obtain ⟨ready, ⟨definable, rfl⟩ | ⟨rejected, rfl⟩⟩ := execDefglyph_next.1 h
    · exact ⟨_, execDefglyph_next.2 ⟨ready, .inl ⟨definable, rfl⟩⟩, rfl⟩
    · exact ⟨_, execDefglyph_next.2 ⟨ready, .inr ⟨rejected, rfl⟩⟩, rfl⟩
  | glyphq c =>
    obtain ⟨ready, rfl⟩ := execGlyphq_next.1 h
    exact ⟨_, execGlyphq_next.2 ⟨ready, rfl⟩, rfl⟩
  | segq g d =>
    obtain ⟨ready, inside, rfl⟩ := execSegq_next.1 h
    exact ⟨_, execSegq_next.2 ⟨ready, inside, rfl⟩, rfl⟩

end Sys2Proof.Machine

open Sys2Proof Sys2Proof.Machine

/-- Settles O16: outside the four commands the image stays or takes one `put`, which ORs bits in. -/
theorem otherCommandsOnlySetImageBits : Obligations.OtherCommandsOnlySetImageBits :=
  fun _ _ _ => exec_sets_only

/-- Settles O54: the commands `flushes` names complete with one flush, and of the rest only INIT logs an
event or draws an answer. -/
theorem onlyFlushingCommandsReachTheChips : Obligations.OnlyFlushingCommandsReachTheChips :=
  fun _ _ _ h notInit => ⟨exec_flushedFrom h, exec_sends_nothing h notInit⟩

/-- Settles O55: the new writes are those of one flush, each with its chip's block of the final image. -/
theorem payloadIsTheChipBlock : Obligations.PayloadIsTheChipBlock := by
  refine ⟨fun i s t h => ?payload, fun i s t => exec_keeps_img,
    fun s inv a => Memory.lookup_eq_none_of_within inv.imgWithin⟩
  obtain ⟨new, grown, blocks⟩ := exec_payload h
  refine ⟨new, grown, fun k addr data ack mem => ?_⟩
  rw [blocks k addr data ack mem]
  exact ⟨chipBlock_length t k, fun j => chipBlock_getElem? t k⟩

/-- Settles O57: the answers are first looked at by the flush that ends a command. -/
theorem answersReachOnlyOkAndTrace : Obligations.AnswersReachOnlyOkAndTrace :=
  fun _ _ _ as n notInit h => exec_withAnswers as n h notInit

/-- Settles O58: the laws of `Memory.write`, and a canonical store is determined by its lookups. -/
theorem memoryLaws : Obligations.MemoryLaws := by
  refine ⟨fun a v s => ⟨?same, fun b other => ?other, Memory.wf_write a v⟩,
    fun m n => Memory.ext_lookup⟩
  case same => rw [memRead_memWrite, if_pos rfl]
  case other => rw [memRead_memWrite, if_neg other]

/-- Settles O8: one equation of `step` for each thing the presented bytes can be. -/
theorem stepRunsTheDecodedCommand : Obligations.StepRunsTheDecodedCommand :=
  fun _ => ⟨fun _ _ => step_of_command, fun _ => step_of_invalid, step_of_no_input⟩

end

section
/-! PROOFS. The bytes of a command (30_encoding.md): the decoder inverts the encoder, invalid bytes are refused
by name, a command's length stands in its first bytes, and the written form. -/

namespace Sys2Proof

/-! ## Operand fields (30_encoding.md R52, R53) -/

theorem maskOfBytes_toNat (mlo mhi : Byte) :
    (maskOfBytes mlo mhi).toNat = mhi.toNat * 256 + mlo.toNat := by
  rw [maskOfBytes, BitVec.toNat_append, Nat.shiftLeft_eq, Nat.mul_comm,
    ← Nat.two_pow_add_eq_or_of_lt mlo.isLt, Nat.mul_comm]

theorem maskOfBytes_extractLsb' (m : BitVec 16) :
    maskOfBytes (m.extractLsb' 0 8) (m.extractLsb' 8 8) = m :=
  (BitVec.extractLsb'_append_extractLsb'_eq_extractLsb' rfl).trans BitVec.extractLsb'_eq_self

theorem extractLsb'_low_maskOfBytes (mlo mhi : Byte) :
    (maskOfBytes mlo mhi).extractLsb' 0 8 = mlo := BitVec.extractLsb'_append_eq_right

theorem extractLsb'_high_maskOfBytes (mlo mhi : Byte) :
    (maskOfBytes mlo mhi).extractLsb' 8 8 = mhi := BitVec.extractLsb'_append_eq_left

theorem segOfByte_eq_none {a : Byte} (illegal : 14 ≤ a.toNat) : segOfByte a = none :=
  dif_neg (Nat.not_lt.2 illegal)

theorem segOfByte_eq_some_iff {a : Byte} {g : Seg} :
    segOfByte a = some g ↔ a = BitVec.ofNat 8 g.val := by
  have small : g.val < 14 := g.isLt
  have fits : (BitVec.ofNat 8 g.val).toNat = g.val := Nat.mod_eq_of_lt (by omega)
  rw [segOfByte, Option.dite_none_right_eq_some, BitVec.toNat_eq, fits]
  simp only [Option.some.injEq, Fin.ext_iff]
  constructor
  · rintro ⟨_, named⟩
    exact named
  · intro named
    exact ⟨named ▸ small, named⟩

/-! ## The four formats with operands (30_encoding.md R51): the bytes they accept -/

theorem decodeF1_eq_command_iff {k : Byte → Instr} {bs rest : List Byte} {i : Instr} :
    decodeF1 k bs = .command i rest ↔ ∃ a, bs = a :: rest ∧ k a = i := by
  cases bs <;> simp [decodeF1, and_comm]

theorem decodeF2_eq_command_iff {k : Byte → Byte → Option Instr} {bs rest : List Byte} {i : Instr} :
    decodeF2 k bs = .command i rest ↔ ∃ a b, bs = a :: b :: rest ∧ k a b = some i := by
  rcases bs with _ | ⟨a, _ | ⟨b, after⟩⟩
  · simp [decodeF2]
  · simp [decodeF2]
  · cases accepted : k a b <;> simp [decodeF2, accepted, and_comm]

theorem decodeF3_eq_command_iff {k : Byte → BitVec 16 → Instr} {bs rest : List Byte} {i : Instr} :
    decodeF3 k bs = .command i rest ↔
      ∃ a mlo mhi, bs = a :: mlo :: mhi :: rest ∧ k a (maskOfBytes mlo mhi) = i := by
  rcases bs with _ | ⟨a, _ | ⟨mlo, _ | ⟨mhi, after⟩⟩⟩ <;> simp [decodeF3, and_comm]

theorem decodeFV_eq_command_iff {k : List Byte → Instr} {bs rest : List Byte} {i : Instr} :
    decodeFV k bs = .command i rest ↔
      ∃ (n : Byte) (cs : List Byte), bs = n :: (cs ++ rest) ∧ cs.length = n.toNat ∧ k cs = i := by
  constructor
  · intro h
    cases bs with
    | nil => cases h
    | cons n after =>
      rw [decodeFV] at h
      split at h
      · rename_i enough
        cases h
        exact ⟨n, after.take n.toNat, by rw [List.take_append_drop], List.length_take_of_le enough, rfl⟩
      · cases h
  · rintro ⟨n, cs, rfl, counted, rfl⟩
    simp [decodeFV, ← counted]

/-! ## The formats with too few bytes: truncated, before an operand is looked at (60_exceptions.md R147) -/

theorem decodeF1_of_short {k : Byte → Instr} {bs : List Byte} (short : bs.length < 1) :
    decodeF1 k bs = .invalid .truncated := by
  cases bs with
  | nil => rfl
  | cons a after => simp at short

theorem decodeF2_of_short {k : Byte → Byte → Option Instr} {bs : List Byte} (short : bs.length < 2) :
    decodeF2 k bs = .invalid .truncated := by
  rcases bs with _ | ⟨a, _ | ⟨b, after⟩⟩
  · rfl
  · rfl
  · simp at short

theorem decodeF3_of_short {k : Byte → BitVec 16 → Instr} {bs : List Byte} (short : bs.length < 3) :
    decodeF3 k bs = .invalid .truncated := by
  rcases bs with _ | ⟨a, _ | ⟨mlo, _ | ⟨mhi, after⟩⟩⟩
  · rfl
  · rfl
  · rfl
  · simp only [List.length_cons] at short
    omega

theorem decodeFV_of_short {k : List Byte → Instr} {n : Byte} {after : List Byte}
    (short : after.length < n.toNat) : decodeFV k (n :: after) = .invalid .truncated :=
  if_neg (Nat.not_le.2 short)

/-! ## Byte 0 (30_encoding.md R54) -/

/-- The opcodes of the table of R54; `decode_of_reserved` says of every other byte 0 that it is invalid. -/
def opcodes : List Byte := [0x01, 0x02, 0x03, 0x10, 0x11, 0x12, 0x20, 0x21, 0x30, 0x40, 0x41]

theorem toNat_mem_iff_mem_opcodes {op : Byte} :
    op.toNat ∈ [0x01, 0x02, 0x03, 0x10, 0x11, 0x12, 0x20, 0x21, 0x30, 0x40, 0x41] ↔ op ∈ opcodes := by
  simp [opcodes, BitVec.toNat_eq]

theorem decode_init (rest : List Byte) : decode (0x01 :: rest) = .command .init rest := rfl
theorem decode_clear (rest : List Byte) : decode (0x02 :: rest) = .command .clear rest := rfl
theorem decode_flush (rest : List Byte) : decode (0x03 :: rest) = .command .flush rest := rfl
theorem decode_wrchar (rest : List Byte) :
    decode (0x10 :: rest) = decodeF2 (fun c d => some (.wrchar c d)) rest := rfl
theorem decode_wrbyte (rest : List Byte) : decode (0x11 :: rest) = decodeF1 .wrbyte rest := rfl
theorem decode_wrstream (rest : List Byte) : decode (0x12 :: rest) = decodeFV .wrstream rest := rfl
theorem decode_shl (rest : List Byte) : decode (0x20 :: rest) = decodeF1 .shl rest := rfl
theorem decode_shr (rest : List Byte) : decode (0x21 :: rest) = decodeF1 .shr rest := rfl
theorem decode_defglyph (rest : List Byte) : decode (0x30 :: rest) = decodeF3 .defglyph rest := rfl
theorem decode_glyphq (rest : List Byte) : decode (0x40 :: rest) = decodeF1 .glyphq rest := rfl
theorem decode_segq (rest : List Byte) :
    decode (0x41 :: rest) = decodeF2 (fun a d => (segOfByte a).map (fun g => .segq g d)) rest := rfl

theorem decode_of_reserved {op : Byte} (reserved : op ∉ opcodes) (rest : List Byte) :
    decode (op :: rest) = .invalid .opcode := by
  simp only [← toNat_mem_iff_mem_opcodes, List.mem_cons, List.not_mem_nil, not_or] at reserved
  simp [decode, reserved]

theorem commandLength_of_reserved {op : Byte} (reserved : op ∉ opcodes) (rest : List Byte) :
    commandLength (op :: rest) = none := by
  simp only [← toNat_mem_iff_mem_opcodes, List.mem_cons, List.not_mem_nil, not_or] at reserved
  simp [commandLength, reserved]

/-- Case analysis of byte 0 along the table of R54: for `cases op using opcode_cases`. -/
theorem opcode_cases {motive : Byte → Prop} (init : motive 0x01) (clear : motive 0x02)
    (flush : motive 0x03) (wrchar : motive 0x10) (wrbyte : motive 0x11) (wrstream : motive 0x12)
    (shl : motive 0x20) (shr : motive 0x21) (defglyph : motive 0x30) (glyphq : motive 0x40)
    (segq : motive 0x41) (reserved : ∀ op, op ∉ opcodes → motive op) (op : Byte) : motive op := by
  by_cases h : op ∈ opcodes
  · simp only [opcodes, List.mem_cons, List.not_mem_nil, or_false] at h
    rcases h with rfl | rfl | rfl | rfl | rfl | rfl | rfl | rfl | rfl | rfl | rfl <;> assumption
  · exact reserved op h

/-! ## The decoder inverts the encoder -/

theorem decode_encode_append {i : Instr} (wf : i.wellFormed = true) (rest : List Byte) :
    decode (encode i ++ rest) = .command i rest := by
  cases i with
  | init | clear | flush | wrchar | wrbyte | shl | shr | glyphq => rfl
  | wrstream cs =>
    have fits : cs.length ≤ 255 := by simpa [Instr.wellFormed] using wf
    have counted : cs.length = (BitVec.ofNat 8 cs.length).toNat := by
      rw [BitVec.toNat_ofNat]; omega
    exact decodeFV_eq_command_iff.2 ⟨_, cs, rfl, counted, rfl⟩
  | defglyph c m =>
    have joined := maskOfBytes_extractLsb' m
    exact decodeF3_eq_command_iff.2 ⟨c, _, _, rfl, congrArg (Instr.defglyph c) joined⟩
  | segq g d =>
    have named : segOfByte (BitVec.ofNat 8 g.val) = some g := segOfByte_eq_some_iff.2 rfl
    have legal := congrArg (Option.map fun g => Instr.segq g d) named
    exact (decode_segq _).trans (decodeF2_eq_command_iff.2 ⟨_, d, rfl, legal⟩)

theorem encode_of_decode {bs rest : List Byte} {i : Instr} (h : decode bs = .command i rest) :
    i.wellFormed = true ∧ bs = encode i ++ rest := by
  cases bs with
  | nil => cases h
  | cons op after =>
    cases op using opcode_cases with
    | init | clear | flush => cases h; exact ⟨rfl, rfl⟩
    | wrchar =>
      rw [decode_wrchar, decodeF2_eq_command_iff] at h
      obtain ⟨c, d, rfl, ⟨⟩⟩ := h
      exact ⟨rfl, rfl⟩
    | wrbyte =>
      rw [decode_wrbyte, decodeF1_eq_command_iff] at h
      obtain ⟨c, rfl, rfl⟩ := h
      exact ⟨rfl, rfl⟩
    | wrstream =>
      rw [decode_wrstream, decodeFV_eq_command_iff] at h
      obtain ⟨n, cs, rfl, counted, rfl⟩ := h
      have fits : cs.length ≤ 255 := by omega
      exact ⟨decide_eq_true fits, by simp [encode, counted]⟩
    | shl =>
      rw [decode_shl, decodeF1_eq_command_iff] at h
      obtain ⟨n, rfl, rfl⟩ := h
      exact ⟨rfl, rfl⟩
    | shr =>
      rw [decode_shr, decodeF1_eq_command_iff] at h
      obtain ⟨n, rfl, rfl⟩ := h
      exact ⟨rfl, rfl⟩
    | defglyph =>
      rw [decode_defglyph, decodeF3_eq_command_iff] at h
      obtain ⟨c, mlo, mhi, rfl, rfl⟩ := h
      exact ⟨rfl, by simp [encode, extractLsb'_low_maskOfBytes, extractLsb'_high_maskOfBytes]⟩
    | glyphq =>
      rw [decode_glyphq, decodeF1_eq_command_iff] at h
      obtain ⟨c, rfl, rfl⟩ := h
      exact ⟨rfl, rfl⟩
    | segq =>
      rw [decode_segq, decodeF2_eq_command_iff] at h
      obtain ⟨a, d, rfl, legal⟩ := h
      obtain ⟨g, named, rfl⟩ := Option.map_eq_some_iff.1 legal
      rw [segOfByte_eq_some_iff.1 named]
      exact ⟨rfl, rfl⟩
    | reserved op unlisted => rw [decode_of_reserved unlisted] at h; cases h

/-! ## Lengths (30_encoding.md R56) -/

theorem commandLength_encode {i : Instr} (wf : i.wellFormed = true) :
    commandLength (encode i) = some (encode i).length := by
  cases i with
  | wrstream cs => exact Laws.EncodedLength.wrstream cs wf
  | init | clear | flush | wrchar | wrbyte | shl | shr | defglyph | glyphq | segq => rfl

/-- The bytes after a command have no say in its length. -/
theorem commandLength_encode_append (i : Instr) (rest : List Byte) :
    commandLength (encode i ++ rest) = commandLength (encode i) := by
  cases i <;> rfl

theorem commandLength_of_decode {bs rest : List Byte} {i : Instr} (h : decode bs = .command i rest) :
    commandLength bs = some (encode i).length := by
  obtain ⟨wf, rfl⟩ := encode_of_decode h
  rw [commandLength_encode_append, commandLength_encode wf]

theorem commandLength_from_opcode {op : Byte} {after : List Byte} {n : Nat} (fixed : op ≠ 0x12)
    (h : commandLength (op :: after) = some n) :
    n ≤ 4 ∧ ∀ other, commandLength (op :: other) = some n := by
  cases op using opcode_cases with
  | init | clear | flush | wrchar | wrbyte | shl | shr | defglyph | glyphq | segq =>
    cases h
    exact ⟨by decide, fun _ => rfl⟩
  | wrstream => exact absurd rfl fixed
  | reserved op unlisted => rw [commandLength_of_reserved unlisted] at h; cases h

theorem commandLength_from_count {after : List Byte} {n : Nat}
    (h : commandLength (0x12 :: after) = some n) : ∃ c cs, after = c :: cs ∧ n = 2 + c.toNat := by
  cases after with
  | nil => cases h
  | cons c cs =>
    cases h
    exact ⟨c, cs, rfl, rfl⟩

theorem decode_of_short {bs : List Byte} {n : Nat} (h : commandLength bs = some n)
    (short : bs.length < n) : decode bs = .invalid .truncated := by
  cases bs with
  | nil => rfl
  | cons op after =>
    rw [List.length_cons] at short
    cases op using opcode_cases with
    | init | clear | flush => cases h; omega
    | wrchar => cases h; rw [decode_wrchar, decodeF2_of_short (by omega)]
    | wrbyte => cases h; rw [decode_wrbyte, decodeF1_of_short (by omega)]
    | wrstream =>
      obtain ⟨c, cs, rfl, rfl⟩ := commandLength_from_count h
      rw [List.length_cons] at short
      rw [decode_wrstream, decodeFV_of_short (by omega)]
    | shl => cases h; rw [decode_shl, decodeF1_of_short (by omega)]
    | shr => cases h; rw [decode_shr, decodeF1_of_short (by omega)]
    | defglyph => cases h; rw [decode_defglyph, decodeF3_of_short (by omega)]
    | glyphq => cases h; rw [decode_glyphq, decodeF1_of_short (by omega)]
    | segq => cases h; rw [decode_segq, decodeF2_of_short (by omega)]
    | reserved op unlisted => rw [commandLength_of_reserved unlisted] at h; cases h

theorem decode_segq_of_illegal {a : Byte} (illegal : 14 ≤ a.toNat) (d : Byte) (after : List Byte) :
    decode (0x41 :: a :: d :: after) = .invalid .operand := by
  rw [decode_segq, decodeF2, segOfByte_eq_none illegal, Option.map_none]

end Sys2Proof

open Sys2Proof Sys2Proof.Machine

/-- Settles O2: a short case per command; only the count, the mask and the segment byte need a field lemma. -/
theorem decodeOfEncodeIsTheCommand : Obligations.DecodeOfEncodeIsTheCommand :=
  fun _ rest wf => decode_encode_append wf rest

/-- Settles O3: byte 0 fixes the format, and the format the bytes it accepts. -/
theorem decodedBytesAreTheEncoding : Obligations.DecodedBytesAreTheEncoding :=
  fun _ _ _ => encode_of_decode

/-- Settles O4: the decoder names what is wrong, and the step refuses by that name before it looks at the
phase. -/
theorem invalidBytesAreRefusedByName : Obligations.InvalidBytesAreRefusedByName := by
  intro s op rest input
  have refused {r : Invalid} (h : decode s.input = .invalid r) : step s = .refused (refusalOf r) :=
    step_of_invalid (by simp [input]) h
  refine ⟨fun reserved => refused (r := .opcode) ?opcode,
    fun a d after isSegq operands illegal => refused (r := .operand) ?operand,
    fun n length short => refused (r := .truncated) (decode_of_short length short),
    fun isStream none => refused (r := .truncated) ?truncated⟩
  case opcode => rw [input, decode_of_reserved (mt toNat_mem_iff_mem_opcodes.2 reserved)]
  case operand => rw [input, isSegq, operands, decode_segq_of_illegal illegal]
  case truncated => rw [input, isStream, none]; rfl

/-- Settles O5: the decoded bytes are an encoding and what follows it, so their length is the encoding's. -/
theorem commandLengthFromTheFirstBytes : Obligations.CommandLengthFromTheFirstBytes := by
  intro op after i rest h
  have length := commandLength_of_decode h
  obtain ⟨-, bytes⟩ := encode_of_decode h
  refine ⟨(encode i).length, length, ?enough, ?left,
    fun fixed => commandLength_from_opcode fixed length, ?counted⟩
  case enough => simp [bytes]
  case left => rw [bytes, List.drop_left]
  case counted => rintro rfl; exact commandLength_from_count length

/-- Settles O1: the decoder is run on the words of section 8. -/
theorem specWordsDecode : Obligations.SpecWordsDecode := by
  unfold Obligations.SpecWordsDecode
  decide

/-- Settles O6: the two mask bytes are joined with the high one first. -/
theorem maskOperandIsLittleEndian : Obligations.MaskOperandIsLittleEndian :=
  fun _ mlo mhi _ => ⟨maskOfBytes mlo mhi, rfl, maskOfBytes_toNat mlo mhi⟩

/-- Settles O7: the assembler is run on the written lines. -/
theorem writtenCommandsAssemble : Obligations.WrittenCommandsAssemble := by
  unfold Obligations.WrittenCommandsAssemble
  decide

end

section
/-! PROOFS. The glyph store of 40_glyph_rom.md: the table index, which mask a lookup gives, how an appended
override changes lookups, and the two glyph commands. -/

namespace Sys2Proof.Machine

/-! ## The table index of a character (40_glyph_rom.md R70) -/

theorem idx_of_printable {c : Byte} (low : 0x20 ≤ c.toNat) (high : c.toNat ≤ 0x7E) :
    idx c = c.toNat - 0x20 := if_pos ⟨low, high⟩

theorem idx_of_unprintable {c : Byte} (outside : c.toNat < 0x20 ∨ 0x7E < c.toNat) : idx c = 95 :=
  if_neg (by omega)

theorem idx_le (c : Byte) : idx c ≤ 95 := by
  unfold idx
  split_ifs <;> omega

theorem idx_inj_of_printable {c e : Byte} (lowc : 0x20 ≤ c.toNat) (highc : c.toNat ≤ 0x7E)
    (lowe : 0x20 ≤ e.toNat) (highe : e.toNat ≤ 0x7E) (same : idx c = idx e) : c = e := by
  rw [idx_of_printable lowc highc, idx_of_printable lowe highe] at same
  exact BitVec.eq_of_toNat_eq (by omega)

theorem exists_idx_eq {i : Nat} (inTable : i < 95) : ∃ c : Byte, idx c = i := by
  have fits : (BitVec.ofNat 8 (0x20 + i)).toNat = 0x20 + i := Nat.mod_eq_of_lt (by omega)
  refine ⟨BitVec.ofNat 8 (0x20 + i), ?_⟩
  rw [idx_of_printable (by omega) (by omega), fits, Nat.add_sub_cancel_left]

theorem idx_eq_sentinel_iff {c : Byte} : idx c = 95 ↔ c.toNat < 0x20 ∨ 0x7E < c.toNat := by
  refine ⟨fun h => ?_, idx_of_unprintable⟩
  by_contra printable
  rw [idx_of_printable (by omega) (by omega)] at h
  omega

theorem idx_ofNat_beq_sentinel {n : Nat} (byte : n < 256) :
    (idx (BitVec.ofNat 8 n) == 95) = true ↔ n < 0x20 ∨ 0x7E < n := by
  rw [beq_iff_eq, idx_eq_sentinel_iff, BitVec.toNat_ofNat, Nat.mod_eq_of_lt byte]

/-- The 32 bytes below the printable range and the 129 above it share the sentinel's index. -/
theorem count_idx_sentinel :
    ((List.range 256).filter (fun n => idx (BitVec.ofNat 8 n) == 95)).length = 161 := by
  have parts : List.range 256 = List.range' 0 32 ++ (List.range' 32 95 ++ List.range' 127 129) := by
    rw [List.range_eq_range', List.range'_append_1, List.range'_append_1]
  rw [parts, List.filter_append, List.filter_append, List.filter_eq_self.2 ?below,
    List.filter_eq_nil_iff.2 ?printable, List.filter_eq_self.2 ?above]
  case below | above =>
    intro n h
    rw [List.mem_range'_1] at h
    exact (idx_ofNat_beq_sentinel (by omega)).2 (by omega)
  case printable =>
    intro n h
    rw [List.mem_range'_1] at h
    exact mt (idx_ofNat_beq_sentinel (by omega)).1 (by omega)
  simp

theorem idx_of_isDefinable {c : Byte} (h : isDefinable c = true) : idx c = c.toNat - 0x20 := by
  have range : 0x21 ≤ c.toNat ∧ c.toNat ≤ 0x7E := of_decide_eq_true h
  exact idx_of_printable (by omega) range.2

/-! ## The override store (40_glyph_rom.md R72) -/

theorem overrideOf_eq_none_iff {ovr : List Override} {i : Nat} :
    overrideOf ovr i = none ↔ ∀ x ∈ ovr, x.index ≠ i := by
  simp [overrideOf]

/-- The first of several overrides of an index wins (decision D10). -/
theorem overrideOf_of_first {pre : List Override} {e : Override}
    (first : ∀ x ∈ pre, x.index ≠ e.index) (post : List Override) :
    overrideOf (pre ++ e :: post) e.index = some e.mask := by
  have skipped : pre.find? (fun x => x.index == e.index) = none := by simpa using first
  simp [overrideOf, List.find?_append, skipped]

/-- An appended override is not seen at an index already overridden, nor at any but its own. -/
theorem overrideOf_append_of_unseen {ovr : List Override} {e : Override} {i : Nat}
    (unseen : (∃ x ∈ ovr, x.index = i) ∨ e.index ≠ i) :
    overrideOf (ovr ++ [e]) i = overrideOf ovr i := by
  rw [overrideOf_append_singleton]
  rcases unseen with taken | other
  · have stored : overrideOf ovr i ≠ none := by simpa [overrideOf_eq_none_iff] using taken
    exact Option.or_of_isSome (Option.isSome_iff_ne_none.2 stored)
  · rw [if_neg other, Option.or_none]

/-! ## The glyph of a character (40_glyph_rom.md R72, R73) -/

theorem glyph_of_first_override {s : State} {c : Byte} {pre post : List Override} {e : Override}
    (stored : s.ovr = pre ++ e :: post) (first : ∀ x ∈ pre, x.index ≠ idx c)
    (own : e.index = idx c) : glyph s c = e.mask := by
  rw [← own] at first
  rw [glyph, stored, ← own, overrideOf_of_first first, Option.getD_some]

theorem glyph_of_no_override {s : State} {c : Byte} (h : ∀ x ∈ s.ovr, x.index ≠ idx c) :
    glyph s c = romEntry s (idx c) := by
  rw [glyph, overrideOf_eq_none_iff.2 h, Option.getD_none]

/-- A glyph depends on the record and on the override of the character's index alone. -/
theorem glyph_congr {s t : State} {c : Byte} (cfg : t.cfg = s.cfg)
    (same : overrideOf t.ovr (idx c) = overrideOf s.ovr (idx c)) : glyph t c = glyph s c := by
  simp only [glyph, romEntry, cfg, same]

theorem romEntry_of_getElem? {s : State} {i : Nat} {m : Mask14} (h : s.cfg.rom[i]? = some m) :
    romEntry s i = m := by
  simp [romEntry, List.getD_eq_getElem?_getD, h]

/-- A legal ROM has an entry for every table index (00_scope.md R3). -/
theorem rom_getElem?_idx {s : State} (legal : s.cfg.Legal) (c : Byte) :
    s.cfg.rom[idx c]? = some (romEntry s (idx c)) := by
  obtain ⟨-, ⟨size, -⟩, -⟩ := legal
  have inside : idx c < s.cfg.rom.length := by have := idx_le c; omega
  rw [List.getElem?_eq_getElem inside, romEntry_of_getElem? (List.getElem?_eq_getElem inside)]

/-- Overrides have the indices 1..94, so the entries 0 and 95 always come from the ROM. -/
theorem glyph_of_index_not_definable {s : State} {c : Byte} {m : Mask14}
    (legal : OverridesLegal s.ovr) (outside : idx c = 0 ∨ idx c = 95)
    (fixed : s.cfg.rom[idx c]? = some m) : glyph s c = m := by
  have absent : ∀ x ∈ s.ovr, x.index ≠ idx c := by
    intro x hx
    have range := legal x hx
    omega
  rw [glyph_of_no_override absent, romEntry_of_getElem? fixed]

/-! ## What an appended override changes (40_glyph_rom.md R77, 20_memory.md R40)

`t` has the record of `s` and one override more. -/

section Append
variable {s t : State} {e : Override} {c : Byte} (cfg : t.cfg = s.cfg)
  (grown : t.ovr = s.ovr ++ [e])

include grown

theorem glyph_of_append_first (first : ∀ x ∈ s.ovr, x.index ≠ idx c) (own : e.index = idx c) :
    glyph t c = e.mask :=
  glyph_of_first_override grown first own

include cfg

theorem glyph_of_append_unseen (unseen : (∃ x ∈ s.ovr, x.index = idx c) ∨ e.index ≠ idx c) :
    glyph t c = glyph s c :=
  glyph_congr cfg (by rw [grown, overrideOf_append_of_unseen unseen])

theorem first_of_glyph_ne (changed : glyph t c ≠ glyph s c) :
    e.index = idx c ∧ ∀ x ∈ s.ovr, x.index ≠ idx c := by
  have seen := mt (glyph_of_append_unseen cfg grown) changed
  push Not at seen
  exact seen.symm

end Append

/-! ## The glyph commands (40_glyph_rom.md R74, R75) -/

theorem exec_glyphq_of_ready {s : State} (ready : s.phase = .ready) (c : Byte) :
    exec (.glyphq c) s = .next (setOk true (setRes0 ((glyph s c).setWidth 16) s)) :=
  execGlyphq_next.2 ⟨ready, rfl⟩

theorem exec_defglyph_of_definable {s : State} {c : Byte} (ready : s.phase = .ready)
    (low : 0x21 ≤ c.toNat) (high : c.toNat ≤ 0x7E) (m : BitVec 16) :
    exec (.defglyph c m) s =
      .next (setOk true (setOvr (s.ovr ++ [⟨c.toNat - 0x20, keptMask m⟩]) s)) :=
  execDefglyph_next.2 ⟨ready, .inl ⟨decide_eq_true ⟨low, high⟩, rfl⟩⟩

/-- An accepted DEFGLYPH leaves the record and appends the override of its character's index. -/
theorem exec_defglyph_appends {s : State} {c : Byte} (ready : s.phase = .ready)
    (low : 0x21 ≤ c.toNat) (high : c.toNat ≤ 0x7E) (m : BitVec 16) :
    ∃ t, exec (.defglyph c m) s = .next t ∧ t.cfg = s.cfg ∧
      t.ovr = s.ovr ++ [⟨idx c, keptMask m⟩] := by
  refine ⟨_, exec_defglyph_of_definable ready low high m, rfl, ?_⟩
  rw [idx_of_printable (by omega) high]
  rfl

theorem exec_defglyph_of_not_definable {s : State} {c : Byte} (ready : s.phase = .ready)
    (outside : ¬ (0x21 ≤ c.toNat ∧ c.toNat ≤ 0x7E)) (m : BitVec 16) :
    exec (.defglyph c m) s = .next (setOk false s) :=
  execDefglyph_next.2 ⟨ready, .inr ⟨decide_eq_false outside, rfl⟩⟩

theorem whenReady_of_not_ready {s : State} (h : s.phase ≠ .ready) (k : Outcome) :
    whenReady s k = .refused .notReady := whenReady_refused.2 (.inr ⟨h, rfl⟩)

theorem keptMask_toNat (m : BitVec 16) : (keptMask m).toNat = m.toNat % 0x4000 :=
  BitVec.toNat_setWidth 14 m

end Sys2Proof.Machine

open Sys2Proof Sys2Proof.Machine

/-- Settles O24: the search stops at the first override of the index, and falls to the ROM without one. -/
theorem firstInsertedOverrideGoverns : Obligations.FirstInsertedOverrideGoverns := by
  refine fun s c => ⟨fun pre e post => glyph_of_first_override, fun absent legal => ?rom⟩
  case rom => rw [glyph_of_no_override absent, rom_getElem?_idx legal]

/-- Settles O25: no legal override has the index 0 of space or the index 95 of the sentinel. -/
theorem spaceAndSentinelAreFixed : Obligations.SpaceAndSentinelAreFixed := by
  intro s legal overrides
  obtain ⟨-, ⟨-, blank, -, -, full⟩, -⟩ := legal
  refine ⟨glyph_of_index_not_definable overrides (.inl rfl) blank, fun c unprintable => ?_⟩
  exact glyph_of_index_not_definable overrides (.inr unprintable) (unprintable ▸ full)

/-- Settles O26: only an accepted DEFGLYPH touches the overrides, and what it appends is seen only where it
is the first of its index. -/
theorem glyphChangesOnlyAtAFirstDefinition : Obligations.GlyphChangesOnlyAtAFirstDefinition := by
  intro i s t c h changed
  have cfg : t.cfg = s.cfg := exec_keeps_cfg h
  rcases exec_ovr h with same | ⟨e, m, rfl, definable, grown⟩
  · exact absurd (glyph_congr cfg (by rw [same])) changed
  · obtain ⟨own, first⟩ := first_of_glyph_ne cfg grown changed
    exact ⟨e, m, rfl, (idx_of_isDefinable definable).trans own, first,
      glyph_of_append_first grown first own⟩

/-- Settles O29: the appended override is the first of its index or is not seen. -/
theorem definedGlyphIsSeenAtOnce : Obligations.DefinedGlyphIsSeenAtOnce := by
  intro s c m ready low high
  obtain ⟨t, runs, cfg, grown⟩ := exec_defglyph_appends ready low high m
  have unseen (e : Byte) (h : (∃ x ∈ s.ovr, x.index = idx e) ∨ idx c ≠ idx e) :
      glyph t e = glyph s e := glyph_of_append_unseen cfg grown h
  refine ⟨t, runs, fun first e same => ?first, fun taken e => ?taken,
    fun e other => unseen e (.inr other.symm)⟩
  case first => exact glyph_of_append_first grown (same ▸ first) same.symm
  case taken =>
    by_cases same : idx e = idx c
    · exact unseen e (.inl (same ▸ taken))
    · exact unseen e (.inr (Ne.symm same))

/-- Settles O23: the two branches of `idx`, and 32 + 129 bytes take the second. -/
theorem tableIndexOfACharacter : Obligations.TableIndexOfACharacter :=
  ⟨fun _ => idx_of_printable, fun _ => idx_of_unprintable, fun _ _ => idx_inj_of_printable,
    fun _ => exists_idx_eq, count_idx_sentinel⟩

/-- Settles O27: the zero-extension of 14 bits to 16 keeps the number. -/
theorem glyphQueryResult : Obligations.GlyphQueryResult :=
  fun s c => ⟨fun ready => ⟨_, exec_glyphq_of_ready ready c, rfl,
      BitVec.toNat_setWidth_of_le (by decide)⟩,
    fun notReady => whenReady_of_not_ready notReady _⟩

/-- Settles O28: an equation of DEFGLYPH per character range, and the phase before either. -/
theorem defineGlyphResult : Obligations.DefineGlyphResult :=
  fun _ _ m => ⟨fun ready ⟨low, high⟩ =>
      ⟨keptMask m, keptMask_toNat m, exec_defglyph_of_definable ready low high m⟩,
    fun ready outside => exec_defglyph_of_not_definable ready outside m,
    fun notReady => whenReady_of_not_ready notReady _⟩

end

section
/-! PROOFS. The segment address decoder of 41_segment_address.md: row and chip block, the reduced form of the
address, its injectivity, and SEGQ. -/

namespace Sys2Proof.Machine

/-! ## The row (41_segment_address.md R87) -/

/-- A row below 4 is one of the lower half, any other one of the upper half, and its remainder by 4 is the
digit's: the row gives back both of its parts. -/
theorem segRow_eq_iff {cfg : Config} {g h : Seg} {d e : Nat} :
    segRow cfg g d = segRow cfg h e ↔
      d % 4 = e % 4 ∧ (segEntry cfg g).half = (segEntry cfg h).half := by
  unfold segRow
  cases (segEntry cfg g).half <;> cases (segEntry cfg h).half <;> simp [halfOffset] <;> omega

theorem segRow_comtabOfR86 {cfg : Config} (table : cfg.comtab = comtabOfR86) (g : Seg) (d : Nat) :
    segRow cfg g d = d % 4 + if g.val < 7 then 0 else 4 := by
  rw [segRow, (segEntry_comtabOfR86 table g).2]

/-! ## The address (41_segment_address.md R89, R90) -/

theorem segaddr_fst (cfg : Config) (g : Seg) (d : Nat) :
    (segaddr cfg g d).1 = 2 * (segEntry cfg g).common.val + 16 * (d / 4) := by
  rw [segaddr_eq, Nat.mul_comm 2, Nat.mul_comm 16]

/-- The mask has the bit of the row and no other. -/
theorem segaddr_snd_getLsbD (cfg : Config) (g : Seg) (d : Nat) {b : Nat} (hb : b < 8) :
    (segaddr cfg g d).2.getLsbD b =
      decide (b = d % 4 + halfOffset (segEntry cfg g).half) := by
  rw [segaddr_eq]
  exact getLsbD_one_shiftLeft _ b hb

/-- The offset gives back the chip and the common, because twice a common stays below the block size;
the mask gives back the row. -/
theorem segaddr_eq_iff {cfg : Config} {g h : Seg} {d e : Nat} :
    segaddr cfg g d = segaddr cfg h e ↔ segEntry cfg g = segEntry cfg h ∧ d = e := by
  constructor
  · intro same
    rw [segaddr_eq, segaddr_eq, Prod.mk.injEq,
      one_shiftLeft_inj (segRow_le cfg g d) (segRow_le cfg h e), segRow_eq_iff] at same
    obtain ⟨offset, digit, half⟩ := same
    have common : (segEntry cfg g).common = (segEntry cfg h).common := Fin.ext (by omega)
    exact ⟨congrArg₂ SegEntry.mk common half, by omega⟩
  · rintro ⟨entry, rfl⟩
    simp only [segaddr_eq, segRow, entry]

/-- Each segment has a table entry of its own when no entry occurs twice. -/
theorem segEntry_inj {cfg : Config} (size : cfg.comtab.length = 14) (distinct : cfg.DistinctSegments)
    {g h : Seg} : segEntry cfg g = segEntry cfg h ↔ g = h := by
  have inside (k : Seg) : k.val < cfg.comtab.length := by rw [size]; exact k.isLt
  rw [segEntry, segEntry, List.getD_eq_getElem _ _ (inside g), List.getD_eq_getElem _ _ (inside h),
    distinct.getElem_inj_iff, Fin.val_inj]

/-! ## SEGQ (41_segment_address.md R92) -/

theorem exec_segq_of_inside {s : State} {d : Byte} (ready : s.phase = .ready)
    (inside : d.toNat < s.cfg.ndig) (g : Seg) :
    exec (.segq g d) s = .next (setOk true (setRes1 (segaddr s.cfg g d.toNat).2
      (setRes0 (BitVec.ofNat 16 (segaddr s.cfg g d.toNat).1) s))) :=
  execSegq_next.2 ⟨ready, inside, rfl⟩

theorem exec_segq_of_outside {s : State} {d : Byte} (ready : s.phase = .ready)
    (outside : s.cfg.ndig ≤ d.toNat) (g : Seg) : exec (.segq g d) s = .fault .digitRange := by
  have notInChain : digitInChain s d.toNat = false := decide_eq_false (Nat.not_lt.2 outside)
  show execSegq g d s = _
  rw [execSegq, whenReady_of_ready ready, notInChain]
  rfl

/-- The image of at most four chips has 64 bytes, so RES0 holds the offset of a digit of the chain in
full. -/
theorem toNat_ofNat_segaddr_fst {cfg : Config} (legal : cfg.Legal) (g : Seg) {d : Nat}
    (inside : d < cfg.ndig) :
    (BitVec.ofNat 16 (segaddr cfg g d).1).toNat = (segaddr cfg g d).1 := by
  obtain ⟨⟨-, chips⟩, -⟩ := legal
  have below := segaddr_fst_lt g inside
  rw [BitVec.toNat_ofNat, Nat.mod_eq_of_lt (by unfold Config.imgsz at below; omega)]

end Sys2Proof.Machine

open Sys2Proof Sys2Proof.Machine

/-- Settles O32: the offset is a block and twice a common of at most 6, and the mask the bit of the row. -/
theorem segmentAddressReducedForm : Obligations.SegmentAddressReducedForm := by
  intro cfg g d
  have offset := segaddr_fst cfg g d
  have common := (segEntry cfg g).common.isLt
  exact ⟨offset, fun b => segaddr_snd_getLsbD cfg g d, by omega, by omega, segaddr_fst_lt g⟩

/-- Settles O33: an address gives back the digit and the table entry, and the entry the segment. -/
theorem segmentAddressesAreInjective : Obligations.SegmentAddressesAreInjective := by
  intro cfg size distinct g h d e same
  obtain ⟨entry, digit⟩ := segaddr_eq_iff.1 same
  exact ⟨(segEntry_inj size distinct).1 entry, digit⟩

/-- Settles O31: `d mod 4` is at most 3, and the table gives the lower half 0 and the upper half 4. -/
theorem segmentRowAndChipBlock : Obligations.SegmentRowAndChipBlock := by
  refine ⟨fun cfg g d => ⟨rfl, segRow_le cfg g d⟩, fun cfg g d table => ?row, fun _ => rfl,
    fun d => ?block⟩
  case row => rw [segRow_comtabOfR86 table]; split_ifs <;> omega
  case block => unfold chipBase; omega

/-- Settles O34: an equation of SEGQ per digit range, and the phase before either. -/
theorem segmentQueryResult : Obligations.SegmentQueryResult := by
  refine fun s g d legal => ⟨fun ready inside => ?address,
    fun ready outside => exec_segq_of_outside ready outside g,
    fun notReady => whenReady_of_not_ready notReady _⟩
  case address =>
    refine ⟨_, exec_segq_of_inside ready inside g, rfl, ?offset, fun b => segaddr_snd_getLsbD s.cfg g _⟩
    case offset => exact (toNat_ofNat_segaddr_fst legal g inside).trans (segaddr_fst s.cfg g _)

end

section
/-! PROOFS. The display-RAM update engine of 42_buffer_update.md: what `render`, `status` and a stream make of
the image and the shadow, and the commands built from them. -/

namespace Sys2Proof.Machine

/-! ## The flush at the end of a command (42_buffer_update.md R106) -/

@[simp] theorem completeWithFlush_ok (s : State) : (completeWithFlush s).ok = flushOk s := by
  simp [completeWithFlush, flush_eq]

theorem memRead_completeWithFlush (s : State) : memRead (completeWithFlush s) = memRead s :=
  memRead_congr (completeWithFlush_img s)

theorem flushOk_eq_true_iff {s : State} : flushOk s = true ↔ ∀ k < s.cfg.n, answerAt s k = true := by
  simp [flushOk]

/-! ## Zeroing (42_buffer_update.md R102) -/

theorem memRead_zeroImage {s : State} {a : Nat} (inside : a < s.cfg.imgsz) :
    memRead (zeroImage s) a = 0x00 := by
  show readImage (zeroBelow s.cfg.imgsz s.img) a = 0x00
  rw [readImage_zeroBelow, if_pos inside]

theorem memRead_zeroImage_getLsbD {s : State} {a : Nat} (inside : a < s.cfg.imgsz) (b : Nat) :
    (memRead (zeroImage s) a).getLsbD b = false := by
  rw [memRead_zeroImage inside]
  exact BitVec.getLsbD_zero

theorem chipBlock_eq_zeros {s : State} {k : Nat} (inChain : k < s.cfg.n)
    (zero : ∀ a < s.cfg.imgsz, memRead s a = 0x00) : chipBlock s k = List.replicate 16 0x00 := by
  refine List.eq_replicate_iff.2 ⟨chipBlock_length s k, fun b hb => ?_⟩
  obtain ⟨j, hj, rfl⟩ := List.mem_map.1 hb
  have inBlock : j < 16 := List.mem_range.1 hj
  exact zero _ (by unfold Config.imgsz; omega)

/-! ## Rendering (42_buffer_update.md R103) -/

theorem memRead_render (s : State) (m : Mask14) (d a : Nat) {b : Nat} (hb : b < 8) :
    (memRead (render m d s) a).getLsbD b = true ↔
      (memRead s a).getLsbD b = true ∨ LitBit s.cfg m d a b :=
  readImage_renderImage s.cfg m d s.img a b hb

theorem segRow_lt (cfg : Config) (g : Seg) (d : Nat) : segRow cfg g d < 8 :=
  Nat.lt_succ_of_le (segRow_le cfg g d)

theorem LitBit.lt_imgsz {cfg : Config} {m : Mask14} {d a b : Nat} (lit : LitBit cfg m d a b)
    (inside : d < cfg.ndig) : a < cfg.imgsz := by
  obtain ⟨g, -, address⟩ := lit
  have below := segaddr_fst_lt g inside
  rwa [address] at below

theorem litBit_iff {cfg : Config} {m : Mask14} {d a b : Nat} (hb : b < 8) :
    LitBit cfg m d a b ↔ ∃ g : Seg, m.getLsbD g.val = true ∧
      a = 16 * (d / 4) + 2 * (segEntry cfg g).common.val ∧ b = segRow cfg g d := by
  refine exists_congr fun g => and_congr_right fun _ => ?_
  rw [segaddr_eq, Prod.mk.injEq, one_shiftLeft_inj (segRow_le cfg g d) (by omega), eq_comm (b := b)]
  exact and_congr_left fun _ => by omega

/-- Under the table of R86 segment j and segment j + 7 share common j, one in each half. -/
theorem litBit_full_comtabOfR86 {cfg : Config} (table : cfg.comtab = comtabOfR86) {d a b : Nat}
    (hb : b < 8) :
    LitBit cfg 0x3FFF d a b ↔
      (∃ j < 7, a = 16 * (d / 4) + 2 * j) ∧ (b = d % 4 ∨ b = d % 4 + 4) := by
  have full (g : Seg) : (0x3FFF : Mask14).getLsbD g.val = true := by revert g; decide
  simp only [litBit_iff hb, full, true_and, (segEntry_comtabOfR86 table _).1,
    segRow_comtabOfR86 table]
  constructor
  · rintro ⟨g, offset, row⟩
    refine ⟨⟨g.val % 7, by omega, offset⟩, ?_⟩
    split_ifs at row
    · exact .inl row
    · exact .inr row
  · rintro ⟨⟨j, hj, rfl⟩, rfl | rfl⟩
    · exact ⟨⟨j, by omega⟩, by simp only; omega, by simp [hj]⟩
    · exact ⟨⟨j + 7, by omega⟩, by simp only; omega, by simp⟩

theorem renderImage_zero (cfg : Config) (d : Nat) (img : Memory) :
    renderImage cfg 0x0000 d img = img := by
  refine foldl_keeps (· = img) _ _ _ (fun m g _ same => ?_) rfl
  simpa using same

/-! ### Rendering twice

A byte that is written and has all the bits of a mask is left as it is by OR-ing the mask in, and every
later OR leaves it so. -/

/-- Byte a of the image has been written and has every bit of v set. -/
def HasBits (a : Nat) (v : Byte) (img : Memory) : Prop := ∃ w, img.lookup a = some w ∧ w ||| v = w

theorem orImage_eq_self {a : Nat} {v : Byte} {img : Memory} (canonical : img.wf = true)
    (h : HasBits a v img) : orImage a v img = img := by
  obtain ⟨w, stored, absorbed⟩ := h
  have value : readImage img a ||| v = w := by simp [readImage, stored, absorbed]
  refine Memory.ext_lookup (Memory.wf_write _ _ canonical) canonical fun x => ?_
  rw [orImage, Memory.lookup_write, value]
  split_ifs with same
  · rw [same, stored]
  · rfl

theorem hasBits_orImage_self (a : Nat) (v : Byte) (img : Memory) : HasBits a v (orImage a v img) := by
  refine ⟨readImage img a ||| v, by rw [orImage, Memory.lookup_write, if_pos rfl], ?_⟩
  rw [BitVec.or_assoc, BitVec.or_self]

theorem HasBits.orImage {a c : Nat} {v u : Byte} {img : Memory} (h : HasBits a v img) :
    HasBits a v (orImage c u img) := by
  obtain ⟨w, stored, absorbed⟩ := h
  unfold HasBits Machine.orImage
  rw [Memory.lookup_write]
  split_ifs with same
  · subst same
    refine ⟨w ||| u, by simp [readImage, stored], ?_⟩
    rw [BitVec.or_assoc, BitVec.or_comm u, ← BitVec.or_assoc, absorbed]
  · exact ⟨w, stored, absorbed⟩

/-- Every lit segment has its turn in the loop of `render`. -/
theorem hasBits_renderImage (cfg : Config) {m : Mask14} (d : Nat) (img : Memory) {g : Seg}
    (lit : m.getLsbD g.val = true) :
    HasBits (segaddr cfg g d).1 (segaddr cfg g d).2 (renderImage cfg m d img) := by
  obtain ⟨before, after, split⟩ := List.append_of_mem (List.mem_finRange g)
  unfold renderImage allSegments
  rw [split, List.foldl_append, List.foldl_cons, if_pos lit]
  refine foldl_keeps (HasBits (segaddr cfg g d).1 (segaddr cfg g d).2) _ _ _ (fun i h _ kept => ?_)
    (hasBits_orImage_self _ _ _)
  split_ifs
  · exact kept.orImage
  · exact kept

theorem renderImage_renderImage (cfg : Config) (m : Mask14) (d : Nat) {img : Memory}
    (canonical : img.wf = true) :
    renderImage cfg m d (renderImage cfg m d img) = renderImage cfg m d img := by
  refine foldl_keeps (· = renderImage cfg m d img) _ _ _ (fun i g _ same => ?_) rfl
  subst same
  split_ifs with lit
  · exact orImage_eq_self (renderImage_wf cfg m d canonical) (hasBits_renderImage cfg d img lit)
  · rfl

theorem render_render {s : State} (m : Mask14) (d : Nat) (canonical : s.img.wf = true) :
    render m d (render m d s) = render m d s :=
  congrArg (fun img => setImg img s) (renderImage_renderImage s.cfg m d canonical)

/-! ## The digit mask (42_buffer_update.md R110) -/

theorem and_one_shiftLeft_ne_zero_iff {v : Byte} {r : Nat} (hr : r < 8) :
    v &&& (1#8 <<< r) ≠ 0 ↔ v.getLsbD r = true := by
  rw [Ne, BitVec.eq_of_getLsbD_eq_iff, not_iff_comm]
  simp only [BitVec.getLsbD_and]
  constructor
  · intro clear i hi
    rw [getLsbD_one_shiftLeft r i hi]
    by_cases same : i = r
    · simpa [same] using clear
    · simp [same]
  · intro none set
    simpa [set, getLsbD_one_shiftLeft r r hr] using none r hr

theorem digitmask_getLsbD (s : State) (d : Nat) (g : Seg) :
    (digitmask s d).getLsbD g.val =
      (memRead s (segaddr s.cfg g d).1).getLsbD (segRow s.cfg g d) := by
  have mask : (segaddr s.cfg g d).2 = 1#8 <<< segRow s.cfg g d := by rw [segaddr_eq]
  rw [digitmask, BitVec.getLsbD_ofFnLE, dif_pos g.isLt, Bool.eq_iff_iff, decide_eq_true_iff, mask]
  exact and_one_shiftLeft_ne_zero_iff (segRow_lt s.cfg g d)

theorem mask14_ext {m n : Mask14} (h : ∀ g : Seg, m.getLsbD g.val = true ↔ n.getLsbD g.val = true) :
    m = n :=
  BitVec.eq_of_getLsbD_eq fun i hi => Bool.eq_iff_iff.2 (h ⟨i, hi⟩)

/-- No lit segment of another digit, and no other segment of this one, has this bit. -/
theorem litBit_segaddr_iff {cfg : Config} (size : cfg.comtab.length = 14)
    (distinct : cfg.DistinctSegments) {m : Mask14} {d e : Nat} {g : Seg} :
    LitBit cfg m d (segaddr cfg g e).1 (segRow cfg g e) ↔ d = e ∧ m.getLsbD g.val = true := by
  have address : ((segaddr cfg g e).1, 1#8 <<< segRow cfg g e) = segaddr cfg g e := by
    rw [segaddr_eq]
  simp only [LitBit, address, segaddr_eq_iff, segEntry_inj size distinct]
  constructor
  · rintro ⟨_, lit, rfl, digit⟩
    exact ⟨digit, lit⟩
  · rintro ⟨digit, lit⟩
    exact ⟨g, lit, rfl, digit⟩

theorem digitmask_render_getLsbD {s : State} (size : s.cfg.comtab.length = 14)
    (distinct : s.cfg.DistinctSegments) (m : Mask14) (d e : Nat) (g : Seg) :
    (digitmask (render m d s) e).getLsbD g.val = true ↔
      (digitmask s e).getLsbD g.val = true ∨ d = e ∧ m.getLsbD g.val = true := by
  rw [digitmask_getLsbD, digitmask_getLsbD, ← litBit_segaddr_iff size distinct]
  exact memRead_render s m d _ (segRow_lt s.cfg g e)

theorem digitmask_render_same {s : State} (size : s.cfg.comtab.length = 14)
    (distinct : s.cfg.DistinctSegments) (m : Mask14) (d : Nat) :
    digitmask (render m d s) d = digitmask s d ||| m :=
  mask14_ext fun g => by
    rw [digitmask_render_getLsbD size distinct, BitVec.getLsbD_or, Bool.or_eq_true, and_iff_right rfl]

theorem digitmask_render_other {s : State} (size : s.cfg.comtab.length = 14)
    (distinct : s.cfg.DistinctSegments) (m : Mask14) {d e : Nat} (other : e ≠ d) :
    digitmask (render m d s) e = digitmask s e :=
  mask14_ext fun g => by
    rw [digitmask_render_getLsbD size distinct, or_iff_left fun lit => other lit.1.symm]

/-! ## The status bits (42_buffer_update.md R107) -/

theorem memRead_status (s : State) (c : Byte) (a : Nat) :
    memRead (status c s) a =
      if a = 16 * (s.cursor / 4) + statusOffset s.cfg c then memRead s a ||| 0x01
      else memRead s a :=
  readImage_orImage (statusAddress c s) a 0x01 s.img

theorem memRead_status_getLsbD (s : State) (c : Byte) (a b : Nat) :
    (memRead (status c s) a).getLsbD b = true ↔ (memRead s a).getLsbD b = true ∨
      a = 16 * (s.cursor / 4) + statusOffset s.cfg c ∧ b = 0 := by
  rw [memRead_status]
  split_ifs with same
  · simp [same]
  · simp [same]

/-! ## WRCHAR and WRBYTE (42_buffer_update.md R101, R105) -/

@[simp] theorem setOk_setOk (a b : Bool) (s : State) : setOk a (setOk b s) = setOk a s := rfl
@[simp] theorem render_setOk (m : Mask14) (d : Nat) (b : Bool) (s : State) :
    render m d (setOk b s) = setOk b (render m d s) := rfl
@[simp] theorem glyph_setOk (b : Bool) (s : State) (c : Byte) : glyph (setOk b s) c = glyph s c := rfl
@[simp] theorem glyph_render (m : Mask14) (d : Nat) (s : State) (c : Byte) :
    glyph (render m d s) c = glyph s c := rfl

theorem exec_wrchar_of_ordinary {s : State} {c d : Byte} (ready : s.phase = .ready)
    (ordinary : isSpecial c = false) (inside : d.toNat < s.cfg.ndig) :
    exec (.wrchar c d) s = .next (setOk true (render (glyph s c) d.toNat s)) :=
  execWrchar_next.2 ⟨ready, _, put_ok.2 (.inr ⟨ordinary, inside, rfl⟩), rfl⟩

theorem exec_wrchar_of_outside {s : State} {c d : Byte} (ready : s.phase = .ready)
    (ordinary : isSpecial c = false) (outside : s.cfg.ndig ≤ d.toNat) :
    exec (.wrchar c d) s = .fault .digitRange := by
  show execWrchar c d s = _
  rw [execWrchar, whenReady_of_ready ready, put_error.2 (.inr ⟨ordinary, outside, rfl⟩)]

theorem exec_wrchar_of_special {s : State} {c : Byte} (ready : s.phase = .ready)
    (special : isSpecial c = true) (inside : s.cursor < s.cfg.ndig) (d : Byte) :
    exec (.wrchar c d) s = .next (setOk true (status c s)) :=
  execWrchar_next.2 ⟨ready, _, put_ok.2 (.inl ⟨special, inside, rfl⟩), rfl⟩

theorem exec_wrbyte_of_ordinary {s : State} {c : Byte} (ready : s.phase = .ready)
    (ordinary : isSpecial c = false) (inside : s.cursor < s.cfg.ndig) :
    exec (.wrbyte c) s =
      .next (completeWithFlush (advanceCursor (render (glyph s c) s.cursor s))) :=
  execWrbyte_next.2 ⟨ready, _, put_ok.2 (.inr ⟨ordinary, inside, rfl⟩), by simp [ordinary]⟩

theorem exec_wrbyte_of_special {s : State} {c : Byte} (ready : s.phase = .ready)
    (special : isSpecial c = true) (inside : s.cursor < s.cfg.ndig) :
    exec (.wrbyte c) s = .next (completeWithFlush (status c s)) :=
  execWrbyte_next.2 ⟨ready, _, put_ok.2 (.inl ⟨special, inside, rfl⟩), by simp [special]⟩

theorem exec_wrchar_next_of_ordinary {s t : State} {c d : Byte} (ordinary : isSpecial c = false)
    (h : exec (.wrchar c d) s = .next t) :
    s.phase = .ready ∧ d.toNat < s.cfg.ndig ∧ t = setOk true (render (glyph s c) d.toNat s) := by
  obtain ⟨ready, u, hu, rfl⟩ := execWrchar_next.1 h
  rcases put_ok.1 hu with ⟨special, -, -⟩ | ⟨-, inside, rfl⟩
  · rw [ordinary] at special; cases special
  · exact ⟨ready, inside, rfl⟩

/-- What WRCHAR of an ordinary character makes of the digit masks. -/
theorem exec_wrchar_digitmask {s t : State} {c d : Byte} (size : s.cfg.comtab.length = 14)
    (distinct : s.cfg.DistinctSegments) (ordinary : isSpecial c = false)
    (h : exec (.wrchar c d) s = .next t) :
    digitmask t d.toNat = digitmask s d.toNat ||| glyph s c ∧
      ∀ f, f ≠ d.toNat → digitmask t f = digitmask s f := by
  obtain ⟨-, -, rfl⟩ := exec_wrchar_next_of_ordinary ordinary h
  exact ⟨digitmask_render_same size distinct _ _, fun _ => digitmask_render_other size distinct _⟩

/-- Writing the same character again at the same digit changes nothing: its bits are set already. -/
theorem exec_wrchar_again {s t : State} {c d : Byte} (canonical : s.img.wf = true)
    (ordinary : isSpecial c = false) (h : exec (.wrchar c d) s = .next t) :
    exec (.wrchar c d) t = .next t := by
  obtain ⟨ready, inside, rfl⟩ := exec_wrchar_next_of_ordinary ordinary h
  rw [exec_wrchar_of_ordinary (s := setOk true (render (glyph s c) d.toNat s)) ready ordinary inside,
    glyph_setOk, glyph_render, render_setOk, render_render _ _ canonical, setOk_setOk]

/-! ## Streams (42_buffer_update.md R108)

A stream is taken apart at its last character: then the characters before it have the same positions with
and without it, and what it records in the shadow is the latest. -/

theorem streamChars_concat {cs : List Byte} {c : Byte} {s w : State}
    (h : streamChars (cs ++ [c]) s = .ok w) :
    ∃ u t, streamChars cs s = .ok u ∧ put c u.cursor u = .ok t ∧ w = recordAndAdvance c t := by
  induction cs generalizing s with
  | nil =>
    obtain ⟨t, ht, rest⟩ := streamChars_cons h
    cases rest
    exact ⟨s, t, rfl, ht, rfl⟩
  | cons e cs ih =>
    obtain ⟨t, ht, rest⟩ := streamChars_cons h
    obtain ⟨u, v, hu, hv, rfl⟩ := ih rest
    exact ⟨u, v, by simpa only [streamChars, ht] using hu, hv, rfl⟩

/-- The places of the characters of a stream are those before its last one, and the last one's. -/
theorem exists_split_concat {cs : List Byte} {c : Byte} {P : List Byte → Byte → Prop} :
    (∃ pre e post, cs ++ [c] = pre ++ e :: post ∧ P pre e) ↔
      (∃ pre e post, cs = pre ++ e :: post ∧ P pre e) ∨ P cs c := by
  constructor
  · rintro ⟨pre, e, post, split, h⟩
    rcases List.eq_nil_or_concat' post with rfl | ⟨post, x, rfl⟩
    · obtain ⟨rfl, last⟩ := List.append_inj' split rfl
      cases last
      exact .inr h
    · rw [← List.cons_append, ← List.append_assoc] at split
      exact .inl ⟨pre, e, post, (List.append_inj' split rfl).1, h⟩
  · rintro (⟨pre, e, post, rfl, h⟩ | h)
    · exact ⟨pre, e, post ++ [c], by simp, h⟩
    · exact ⟨cs, c, [], rfl, h⟩

/-- Character c put at position p, which is also the cursor, lights bit b of byte a. -/
def LightsBit (s : State) (c : Byte) (p a b : Nat) : Prop :=
  if isSpecial c then a = 16 * (p / 4) + statusOffset s.cfg c ∧ b = 0
  else LitBit s.cfg (glyph s c) p a b

theorem LightsBit.congr_displayFrom {s t : State} (h : DisplayFrom s t) :
    LightsBit t = LightsBit s := by
  rw [h]; rfl

theorem memRead_put_at_cursor {c : Byte} {s t : State} (h : put c s.cursor s = .ok t) (a : Nat)
    {b : Nat} (hb : b < 8) :
    (memRead t a).getLsbD b = true ↔
      (memRead s a).getLsbD b = true ∨ LightsBit s c s.cursor a b := by
  rcases put_ok.1 h with ⟨special, -, rfl⟩ | ⟨ordinary, -, rfl⟩
  · rw [LightsBit, if_pos special]
    exact memRead_status_getLsbD s c a b
  · rw [LightsBit, if_neg (by simp [ordinary])]
    exact memRead_render s _ _ a hb

theorem ordinaries_concat_special (cs : List Byte) {c : Byte} (special : isSpecial c = true) :
    ordinaries (cs ++ [c]) = ordinaries cs := by simp [ordinaries, special]

theorem ordinaries_concat_ordinary (cs : List Byte) {c : Byte} (ordinary : isSpecial c = false) :
    ordinaries (cs ++ [c]) = ordinaries cs ++ [c] := by simp [ordinaries, ordinary]

theorem ordinaries_eq_self {cs : List Byte} (h : ∀ c ∈ cs, isSpecial c = false) :
    ordinaries cs = cs := List.filter_eq_self.2 fun c hc => by simp [h c hc]

section FromHome
variable {cs : List Byte} {s u : State} (h : streamChars cs s = .ok u) (home : s.cursor = 0)
  (chips : 0 < s.cfg.ndig)

include h home chips

theorem streamChars_cursor_of_home : u.cursor = (ordinaries cs).length % s.cfg.ndig := by
  rw [streamChars_cursor h (home ▸ chips), home, Nat.zero_add]

/-- The bits of the image after a stream: those of before and those its characters light. -/
theorem memRead_streamChars (a : Nat) {b : Nat} (hb : b < 8) :
    (memRead u a).getLsbD b = true ↔ (memRead s a).getLsbD b = true ∨
      ∃ pre c post, cs = pre ++ c :: post ∧
        LightsBit s c ((ordinaries pre).length % s.cfg.ndig) a b := by
  induction cs using List.reverseRecOn generalizing u with
  | nil => cases h; simp
  | append_singleton cs c ih =>
    obtain ⟨v, t, hv, ht, rfl⟩ := streamChars_concat h
    rw [memRead_congr (recordAndAdvance_img c t), memRead_put_at_cursor ht a hb, ih hv,
      LightsBit.congr_displayFrom (displayFrom_streamChars hv),
      streamChars_cursor_of_home hv home chips, exists_split_concat, or_assoc]

/-- The last ordinary character of each position visited is the one recorded. -/
theorem shadow_streamChars_visited {j : Nat} (hj : j < (ordinaries cs).length)
    (last : (ordinaries cs).length ≤ j + s.cfg.ndig) :
    u.shadow.lookup (j % s.cfg.ndig) = (ordinaries cs)[j]? := by
  induction cs using List.reverseRecOn generalizing u with
  | nil => simp [ordinaries] at hj
  | append_singleton cs c ih =>
    obtain ⟨v, t, hv, ht, rfl⟩ := streamChars_concat h
    rw [recordAndAdvance_shadow, put_shadow ht, put_cursor ht,
      streamChars_cursor_of_home hv home chips]
    cases special : isSpecial c with
    | true =>
      rw [ordinaries_concat_special cs special] at hj last ⊢
      exact ih hv hj last
    | false =>
      rw [ordinaries_concat_ordinary cs special] at hj last ⊢
      rw [List.length_append, List.length_singleton] at hj last
      rw [if_neg Bool.false_ne_true, Memory.lookup_write]
      rcases Nat.lt_succ_iff_lt_or_eq.1 hj with earlier | rfl
      · have apart : j % s.cfg.ndig ≠ (ordinaries cs).length % s.cfg.ndig := by
          intro same
          have := (Nat.modEq_iff_dvd' earlier.le).1 same
          exact absurd (Nat.le_of_dvd (by omega) this) (by omega)
        rw [if_neg apart, ih hv earlier (by omega), List.getElem?_append_left earlier]
      · rw [if_pos rfl, List.getElem?_concat_length]

theorem shadow_streamChars_unvisited {i : Nat}
    (unvisited : (ordinaries cs).length ≤ i ∨ s.cfg.ndig ≤ i) :
    u.shadow.lookup i = s.shadow.lookup i := by
  induction cs using List.reverseRecOn generalizing u with
  | nil => cases h; rfl
  | append_singleton cs c ih =>
    obtain ⟨v, t, hv, ht, rfl⟩ := streamChars_concat h
    rw [recordAndAdvance_shadow, put_shadow ht, put_cursor ht,
      streamChars_cursor_of_home hv home chips]
    cases special : isSpecial c with
    | true =>
      rw [ordinaries_concat_special cs special] at unvisited
      exact ih hv unvisited
    | false =>
      rw [ordinaries_concat_ordinary cs special, List.length_append, List.length_singleton] at unvisited
      have low := Nat.mod_le (ordinaries cs).length s.cfg.ndig
      have inside := Nat.mod_lt (ordinaries cs).length chips
      rw [if_neg Bool.false_ne_true, Memory.lookup_write, if_neg (by omega), ih hv (by omega)]

end FromHome

/-! ### Texts that fit the chain (42_buffer_update.md R104) -/

theorem getElem?_eq_some_iff_split {cs : List Byte} {d : Nat} {c : Byte} :
    cs[d]? = some c ↔ ∃ pre post, cs = pre ++ c :: post ∧ pre.length = d := by
  constructor
  · intro place
    obtain ⟨inText, rfl⟩ := List.getElem?_eq_some_iff.1 place
    refine ⟨cs.take d, cs.drop (d + 1), ?_, List.length_take_of_le inText.le⟩
    rw [← List.drop_eq_getElem_cons inText, List.take_append_drop]
  · rintro ⟨pre, post, rfl, rfl⟩
    simp

/-- An ordinary character of a text no longer than the chain lights segments of the digit of its own
place only. -/
theorem exists_lightsBit_text_iff {s : State} {cs : List Byte} (size : s.cfg.comtab.length = 14)
    (distinct : s.cfg.DistinctSegments) (ordinary : ∀ c ∈ cs, isSpecial c = false)
    (fits : cs.length ≤ s.cfg.ndig) {d : Nat} {g : Seg} :
    (∃ pre c post, cs = pre ++ c :: post ∧ LightsBit s c ((ordinaries pre).length % s.cfg.ndig)
      (segaddr s.cfg g d).1 (segRow s.cfg g d)) ↔
      ∃ c, cs[d]? = some c ∧ (glyph s c).getLsbD g.val = true := by
  have place {pre post : List Byte} {c : Byte} (split : cs = pre ++ c :: post) :
      LightsBit s c ((ordinaries pre).length % s.cfg.ndig) (segaddr s.cfg g d).1 (segRow s.cfg g d) ↔
        pre.length = d ∧ (glyph s c).getLsbD g.val = true := by
    subst split
    have before : pre.length < s.cfg.ndig := by simp at fits; omega
    rw [ordinaries_eq_self fun e he => ordinary e (by simp [he]), Nat.mod_eq_of_lt before,
      LightsBit, if_neg (by simp [ordinary c (by simp)]), litBit_segaddr_iff size distinct]
  simp only [getElem?_eq_some_iff_split]
  constructor
  · rintro ⟨pre, c, post, split, lit⟩
    obtain ⟨here, lit⟩ := (place split).1 lit
    exact ⟨c, ⟨pre, post, split, here⟩, lit⟩
  · rintro ⟨c, ⟨pre, post, split, here⟩, lit⟩
    exact ⟨pre, c, post, split, (place split).2 ⟨here, lit⟩⟩

theorem ndig_pos_of_legal {cfg : Config} (legal : cfg.Legal) : 0 < cfg.ndig := by
  obtain ⟨⟨chips, -⟩, -⟩ := legal
  unfold Config.ndig
  omega

theorem exec_wrstream_of_ready {s : State} (ready : s.phase = .ready) (chips : 0 < s.cfg.ndig)
    (cs : List Byte) :
    ∃ u, streamChars cs (setCursor 0 (zeroImage s)) = .ok u ∧
      exec (.wrstream cs) s = .next (completeWithFlush u) := by
  obtain ⟨u, hu, streamed⟩ := stream_completes cs chips
  exact ⟨u, hu, execWrstream_next.2 ⟨ready, streamed⟩⟩

/-! ## The shadow (43_shift.md R121) -/

theorem ShadowOrdinary.recordAndAdvance {s : State} (h : ShadowOrdinary s) (c : Byte) :
    ShadowOrdinary (recordAndAdvance c s) := by
  intro i v
  rw [recordAndAdvance_shadow]
  cases special : isSpecial c with
  | true => exact h i v
  | false =>
    rw [if_neg Bool.false_ne_true, Memory.lookup_write]
    split_ifs with same
    · rintro ⟨⟩
      exact special
    · exact h i v

theorem ShadowOrdinary.congr_shadow {s t : State} (h : ShadowOrdinary s) (same : t.shadow = s.shadow) :
    ShadowOrdinary t := by
  unfold ShadowOrdinary
  rwa [same]

theorem ShadowOrdinary.stream {cs : List Byte} {s t : State} (h : ShadowOrdinary s)
    (ht : stream cs s = .next t) : ShadowOrdinary t := by
  obtain ⟨u, hu, rfl⟩ := stream_next.1 ht
  have kept : ShadowOrdinary u := streamChars_keeps ShadowOrdinary
    (fun c _ _ hs hput => (hs.congr_shadow (put_shadow hput)).recordAndAdvance c) hu h
  exact kept.congr_shadow (completeWithFlush_shadow u)

theorem ShadowOrdinary.exec {i : Instr} {s t : State} (h : ShadowOrdinary s)
    (ht : exec i s = .next t) : ShadowOrdinary t := by
  cases i with
  | wrstream cs => exact h.stream (execWrstream_next.1 ht).2
  | shl n =>
    obtain ⟨-, ⟨-, streamed⟩ | ⟨-, rfl⟩⟩ := execShl_next.1 ht
    · exact h.stream streamed
    · exact h
  | shr n =>
    obtain ⟨-, ⟨-, streamed⟩ | ⟨-, rfl⟩⟩ := execShr_next.1 ht
    · exact h.stream streamed
    · exact h
  | init | clear | flush | wrchar | wrbyte | defglyph | glyphq | segq =>
    exact h.congr_shadow (exec_keeps_shadow ht nofun nofun nofun)

end Sys2Proof.Machine

open Sys2Proof Sys2Proof.Machine

/-- Settles O22: only streams write the shadow, and they record ordinary characters. -/
theorem shadowStaysOrdinary : Obligations.ShadowStaysOrdinary := by
  refine ⟨nofun, fun s t h ht => ?_⟩
  rcases step_next ht with rfl | ⟨i, rest, runs⟩
  · exact h
  · exact ShadowOrdinary.exec (s := setInput rest s) h runs

/-- Settles O35: the loop ORs in the bit of each lit segment. -/
theorem renderSetsExactlyTheLitSegments : Obligations.RenderSetsExactlyTheLitSegments :=
  fun s m d => ⟨rfl, fun a _ hb => memRead_render s m d a hb,
    fun inside _ _ lit => lit.lt_imgsz inside,
    congrArg (fun img => setImg img s) (renderImage_zero s.cfg d s.img),
    fun table _ _ hb => litBit_full_comtabOfR86 table hb⟩

/-- Settles O37: by the distinct addresses of the segments, rendering lights bits of its own digit only. -/
theorem renderedDigitMask : Obligations.RenderedDigitMask :=
  fun _ m d size distinct =>
    ⟨digitmask_render_same size distinct m d, fun _ => digitmask_render_other size distinct m⟩

/-- Settles O38: the equation of WRCHAR for an ordinary character, inside and outside the chain. -/
theorem writeOrdinaryCharacter : Obligations.WriteOrdinaryCharacter :=
  fun s _ _ ready ordinary =>
    ⟨fun inside => ⟨_, exec_wrchar_of_ordinary ready ordinary inside, rfl,
        fun a _ hb => memRead_render s _ _ a hb⟩,
      exec_wrchar_of_outside ready ordinary⟩

/-- Settles O40: two renderings at one digit, and rendering is idempotent on canonical images. -/
theorem writesAccumulate : Obligations.WritesAccumulate := by
  intro s c e d inv distinct ready ordinaryC ordinaryE inside
  obtain ⟨-, -, size, -⟩ := inv.cfg
  have first := exec_wrchar_of_ordinary ready ordinaryC inside
  have second := exec_wrchar_of_ordinary (s := setOk true (render (glyph s c) d.toNat s))
    ready ordinaryE inside
  obtain ⟨same, other⟩ := exec_wrchar_digitmask size distinct ordinaryC first
  obtain ⟨same', other'⟩ := exec_wrchar_digitmask
    (s := setOk true (render (glyph s c) d.toNat s)) size distinct ordinaryE second
  refine ⟨_, _, first, second, ?union, fun f hf => (other' f hf).trans (other f hf),
    exec_wrchar_again inv.imgWf ordinaryC first⟩
  case union =>
    rw [same', same, glyph_setOk, glyph_render]

/-- Settles O41: the flush of the zeroed image with the cursor home. -/
theorem clearResult : Obligations.ClearResult := by
  refine fun s => ⟨fun ready => ?cleared, fun notReady => whenReady_of_not_ready notReady _⟩
  have flushed : FlushedFrom s (completeWithFlush (setCursor 0 (zeroImage s))) :=
    flushedFrom_completeWithFlush (displayFrom_home s)
  have zero (a : Nat) (inside : a < s.cfg.imgsz) :
      memRead (completeWithFlush (setCursor 0 (zeroImage s))) a = 0x00 := by
    rw [memRead_completeWithFlush]
    exact memRead_zeroImage inside
  refine ⟨_, execClear_next.2 ⟨ready, rfl⟩, flushed, completeWithFlush_cursor _,
    completeWithFlush_shadow _, fun a inside => ⟨?stored, zero a inside⟩, fun k inChain => ?block⟩
  case stored =>
    rw [completeWithFlush_img]
    exact (lookup_zeroBelow _ _ _).trans (if_pos inside)
  case block =>
    have cfg : (completeWithFlush (setCursor 0 (zeroImage s))).cfg = s.cfg := completeWithFlush_cfg _
    exact chipBlock_eq_zeros (by rwa [cfg]) (by rwa [cfg])

/-- Settles O42: the flush alone, in closed form. -/
theorem flushResult : Obligations.FlushResult := by
  refine fun s => ⟨fun ready => ?flushed, fun notReady => whenReady_of_not_ready notReady _⟩
  refine ⟨_, execFlush_next.2 ⟨ready, rfl⟩, flushedFrom_completeWithFlush (DisplayFrom.refl s),
    completeWithFlush_img s, completeWithFlush_cursor s, completeWithFlush_shadow s, ?events, ?answers⟩
  case events => rw [completeWithFlush_trace, List.length_append, flushEvents_length]
  case answers => rw [completeWithFlush_ok, flushOk_eq_true_iff]

/-- Settles O43: the equation of WRBYTE for an ordinary character. -/
theorem writeByteOrdinary : Obligations.WriteByteOrdinary := by
  intro s c ready inside ordinary
  refine ⟨_, exec_wrbyte_of_ordinary ready ordinary inside, flushedFrom_completeWithFlush rfl,
    completeWithFlush_cursor _, completeWithFlush_shadow _, fun a b hb => ?_⟩
  rw [memRead_completeWithFlush]
  exact memRead_render s _ _ a hb

/-- Settles O44: the equation of WRBYTE for a special character. -/
theorem writeByteSpecial : Obligations.WriteByteSpecial := by
  intro s c ready inside special
  refine ⟨_, exec_wrbyte_of_special ready special inside, flushedFrom_completeWithFlush rfl,
    completeWithFlush_cursor _, completeWithFlush_shadow _, fun a => ?_⟩
  rw [memRead_completeWithFlush]
  exact memRead_status s c a

/-- Settles O45: a stream begins with a zeroed image and the cursor home, and ends with one flush. -/
theorem streamResult : Obligations.StreamResult := by
  intro s cs legal ready
  have chips := ndig_pos_of_legal legal
  obtain ⟨u, hu, runs⟩ := exec_wrstream_of_ready ready chips cs
  have cursor := streamChars_cursor_of_home hu rfl chips
  have flushed := flushedFrom_completeWithFlush
    ((displayFrom_home s).trans (displayFrom_streamChars hu))
  refine ⟨_, runs, flushed, ?cursor, fun a b inside hb => ?image, fun j hj last => ?visited,
    fun i unvisited => ?unvisited⟩
  case cursor => rwa [completeWithFlush_cursor]
  case image =>
    have blank : (memRead (setCursor 0 (zeroImage s)) a).getLsbD b = false :=
      memRead_zeroImage_getLsbD inside b
    rw [memRead_completeWithFlush, memRead_streamChars hu rfl chips a hb, blank,
      or_iff_right Bool.false_ne_true]
    rfl
  case visited =>
    rw [completeWithFlush_shadow]
    exact shadow_streamChars_visited hu rfl chips hj last
  case unvisited =>
    rw [completeWithFlush_shadow]
    exact shadow_streamChars_unvisited hu rfl chips unvisited

/-- Settles O46: in a text that fits the chain the position of a character is its place in the text. -/
theorem streamTextLandsOnItsDigits : Obligations.StreamTextLandsOnItsDigits := by
  intro s cs legal distinct ready ordinary fits
  obtain ⟨t, runs, -, -, image, shadow, -⟩ := streamResult s cs legal ready
  obtain ⟨-, -, size, -⟩ := legal
  have cfg : t.cfg = s.cfg := exec_keeps_cfg runs
  rw [ordinaries_eq_self ordinary] at shadow
  have lit {d : Nat} (inside : d < s.cfg.ndig) (g : Seg) :
      (digitmask t d).getLsbD g.val = true ↔
        ∃ c, cs[d]? = some c ∧ (glyph s c).getLsbD g.val = true := by
    rw [digitmask_getLsbD, cfg]
    exact (image _ _ (segaddr_fst_lt g inside) (segRow_lt s.cfg g d)).trans
      (exists_lightsBit_text_iff size distinct ordinary fits)
  refine ⟨t, runs, fun d c place => ?character, fun d past inside => mask14_ext fun g => ?blank⟩
  case character =>
    have inText : d < cs.length := (List.getElem?_eq_some_iff.1 place).1
    have inside : d < s.cfg.ndig := by omega
    have position := shadow d inText (by omega)
    rw [Nat.mod_eq_of_lt inside, place] at position
    exact ⟨mask14_ext fun g => by simp only [lit inside, place, Option.some.injEq, exists_eq_left'],
      position⟩
  case blank =>
    rw [lit inside, List.getElem?_eq_none past]
    simp

/-- Settles O36: `status` is one OR at the address R107 computes. -/
theorem statusSetsOneBit : Obligations.StatusSetsOneBit := by
  refine fun s c _ => ⟨rfl, memRead_status s c, fun inside => ?_⟩
  unfold Config.ndig at inside
  unfold Config.imgsz
  omega

/-- Settles O39: the equation of WRCHAR for a special character. -/
theorem writeSpecialCharacter : Obligations.WriteSpecialCharacter :=
  fun s c d ready inside special =>
    ⟨_, exec_wrchar_of_special ready special inside d, rfl, memRead_status s c⟩

/-- Settles O47: a stream without characters is the zeroing, the homing and the flush of CLEAR. -/
theorem emptyStreamIsClear : Obligations.EmptyStreamIsClear :=
  fun _ => ⟨rfl, fun notReady _ => whenReady_of_not_ready notReady _⟩

end

section
/-! PROOFS. The shifts of 43_shift.md: the snapshot a shift renders, and an accepted shift as the stream of a
text that fills the chain. -/

namespace Sys2Proof.Machine

/-! ## The shifted snapshot (43_shift.md R121, R122) -/

@[simp] theorem shiftedLeft_length (n : Nat) (s : State) :
    (shiftedLeft n s).length = s.cfg.ndig := by simp [shiftedLeft]

@[simp] theorem shiftedRight_length (n : Nat) (s : State) :
    (shiftedRight n s).length = s.cfg.ndig := by simp [shiftedRight]

theorem shiftedLeft_getElem? {s : State} {i : Nat} (inside : i < s.cfg.ndig) (n : Nat) :
    (shiftedLeft n s)[i]? =
      some (if i + n < s.cfg.ndig then shadowRead s (i + n) else spaceChar) := by
  rw [shiftedLeft, List.getElem?_map, List.getElem?_range inside, Option.map_some]

theorem shiftedRight_getElem? {s : State} {i : Nat} (inside : i < s.cfg.ndig) (n : Nat) :
    (shiftedRight n s)[i]? = some (if n ≤ i then shadowRead s (i - n) else spaceChar) := by
  rw [shiftedRight, List.getElem?_map, List.getElem?_range inside, Option.map_some]

/-- A snapshot holds characters of the shadow and spaces, so it is special only where the shadow is. -/
theorem shiftedLeft_ordinary {s : State}
    (ordinary : ∀ i < s.cfg.ndig, isSpecial (shadowRead s i) = false) (n : Nat) :
    ∀ c ∈ shiftedLeft n s, isSpecial c = false := by
  refine List.forall_mem_map.2 fun i _ => ?_
  split_ifs with moved
  · exact ordinary _ moved
  · rfl

theorem shiftedRight_ordinary {s : State}
    (ordinary : ∀ i < s.cfg.ndig, isSpecial (shadowRead s i) = false) (n : Nat) :
    ∀ c ∈ shiftedRight n s, isSpecial c = false := by
  refine List.forall_mem_map.2 fun i hi => ?_
  have inside : i < s.cfg.ndig := List.mem_range.1 hi
  split_ifs
  · exact ordinary _ (by omega)
  · rfl

/-! ## Shifts as streams (43_shift.md R121, R122, R123) -/

theorem exec_shl_of_accepted {s : State} {n : Byte} (accepted : n.toNat < s.cfg.ndig) :
    exec (.shl n) s = exec (.wrstream (shiftedLeft n.toNat s)) s := execShl_of_accepted accepted

theorem exec_shr_of_accepted {s : State} {n : Byte} (accepted : n.toNat < s.cfg.ndig) :
    exec (.shr n) s = exec (.wrstream (shiftedRight n.toNat s)) s := execShr_of_accepted accepted

/-- A text that fills the chain: the cursor wraps home, and digit d shows character d. -/
theorem exec_wrstream_of_full_text {s : State} {cs : List Byte} (legal : s.cfg.Legal)
    (distinct : s.cfg.DistinctSegments) (ready : s.phase = .ready)
    (ordinary : ∀ c ∈ cs, isSpecial c = false) (full : cs.length = s.cfg.ndig) :
    ∃ t, exec (.wrstream cs) s = .next t ∧ FlushedFrom s t ∧ t.cursor = 0 ∧
      ∀ {d c}, cs[d]? = some c → t.shadow.lookup d = some c ∧ digitmask t d = glyph s c := by
  obtain ⟨t, runs, flushed, cursor, -⟩ := streamResult s cs legal ready
  obtain ⟨u, sameRun, shown, -⟩ :=
    streamTextLandsOnItsDigits s cs legal distinct ready ordinary full.le
  obtain rfl : t = u := by rw [runs] at sameRun; injection sameRun
  refine ⟨t, runs, flushed, ?home, fun place => (shown _ _ place).symm⟩
  case home => rw [cursor, ordinaries_eq_self ordinary, full, Nat.mod_self]

end Sys2Proof.Machine

open Sys2Proof Sys2Proof.Machine

/-- Settles O50: the snapshot fills the chain, so its stream shows entry i at digit i. -/
theorem shiftLeftResult : Obligations.ShiftLeftResult := by
  intro s n legal distinct ready accepted ordinary
  obtain ⟨t, runs, flushed, home, shown⟩ := exec_wrstream_of_full_text legal distinct ready
    (shiftedLeft_ordinary ordinary n.toNat) (shiftedLeft_length n.toNat s)
  refine ⟨t, (exec_shl_of_accepted accepted).trans runs, flushed, home,
    fun i moved => shown ?moved, fun i inside padded => shown ?padded⟩
  case moved => rw [shiftedLeft_getElem? (by omega), if_pos moved]
  case padded => rw [shiftedLeft_getElem? inside, if_neg (Nat.not_lt.2 padded)]; rfl

/-- Settles O51: the snapshot fills the chain, so its stream shows entry i at digit i. -/
theorem shiftRightResult : Obligations.ShiftRightResult := by
  intro s n legal distinct ready accepted ordinary
  obtain ⟨t, runs, flushed, home, shown⟩ := exec_wrstream_of_full_text legal distinct ready
    (shiftedRight_ordinary ordinary n.toNat) (shiftedRight_length n.toNat s)
  refine ⟨t, (exec_shr_of_accepted accepted).trans runs, flushed, home,
    fun i inside moved => shown ?moved, fun i padded => shown ?padded⟩
  case moved => rw [shiftedRight_getElem? inside, if_pos moved]
  case padded => rw [shiftedRight_getElem? (by omega), if_neg (Nat.not_le.2 padded)]; rfl

/-- Settles O49: the snapshots are the arrays the two shifts stream. -/
theorem shiftStreamsAShiftedSnapshot : Obligations.ShiftStreamsAShiftedSnapshot :=
  fun s n accepted => ⟨shiftedLeft n.toNat s, shiftedRight n.toNat s,
    shiftedLeft_length n.toNat s, shiftedRight_length n.toNat s,
    fun _ inside => shiftedLeft_getElem? inside n.toNat,
    fun _ inside => shiftedRight_getElem? inside n.toNat,
    exec_shl_of_accepted accepted, exec_shr_of_accepted accepted⟩

/-- Settles O52: the second branch of each shift, and the phase before either branch. -/
theorem largeShiftIsRejected : Obligations.LargeShiftIsRejected :=
  fun _ _ => ⟨fun ready large => ⟨execShl_next.2 ⟨ready, .inr ⟨large, rfl⟩⟩,
      execShr_next.2 ⟨ready, .inr ⟨large, rfl⟩⟩⟩,
    fun notReady => ⟨whenReady_of_not_ready notReady _, whenReady_of_not_ready notReady _⟩⟩

end

section
/-! PROOFS. The system operations of 44_system.md: what INIT completes with and where it is refused, and what
lies outside the command set. -/

namespace Sys2Proof.Machine

theorem whenUninit_refused {s : State} {k : Outcome} {q : Refusal} :
    whenUninit s k = .refused q ↔
      (s.phase = .uninit ∧ k = .refused q) ∨ (s.phase ≠ .uninit ∧ q = .alreadyInitialised) := by
  unfold whenUninit; cases s.phase <;> simp [eq_comm (a := Refusal.alreadyInitialised)]

theorem execInit_refused {s : State} {q : Refusal} :
    execInit s = .refused q ↔ s.phase ≠ .uninit ∧ q = .alreadyInitialised := by
  unfold execInit; rw [whenUninit_refused]; simp

end Sys2Proof.Machine

open Sys2Proof Sys2Proof.Machine

/-- Settles O53: INIT completes with its one answer recorded in UNINIT, and is refused elsewhere. -/
theorem initResult : Obligations.InitResult := by
  refine fun s => ⟨fun uninit => execInit_next.2 ⟨uninit, ?recorded⟩,
    fun left => execInit_refused.2 ⟨left, rfl⟩⟩
  case recorded => rw [nextAnswer_eq, List.drop_one]; rfl

/-- Settles O60: neither operation looks at the state, and each answers with its own refusal. -/
theorem operationsOutsideTheSetAreRefused : Obligations.OperationsOutsideTheSetAreRefused :=
  fun _ => ⟨fun _ => rfl, fun _ _ => rfl⟩

end

section
/-! PROOFS. The outcomes of 60_exceptions.md: the phase a command is gated by, the two digit faults, and that
every other command completes. -/

namespace Sys2Proof.Machine

/-! ## Refusals (60_exceptions.md R143, R147) -/

/-- Every command but INIT tests the phase first, and what it does behind that test is never a refusal. -/
theorem exec_eq_whenReady {i : Instr} (notInit : i ≠ .init) (s : State) :
    ∃ k : Outcome, exec i s = whenReady s k ∧ ∀ q, k ≠ .refused q := by
  cases i with
  | init => exact absurd rfl notInit
  | clear | flush | glyphq => exact ⟨_, rfl, nofun⟩
  | wrstream => exact ⟨_, rfl, fun _ => stream_refused⟩
  | wrchar | wrbyte | defglyph | segq =>
    refine ⟨_, rfl, fun q => ?_⟩
    split <;> nofun
  | shl | shr =>
    refine ⟨_, rfl, fun q => ?_⟩
    split
    · exact stream_refused
    · nofun

theorem exec_refused_of_ne_init {i : Instr} {s : State} {q : Refusal} (notInit : i ≠ .init) :
    exec i s = .refused q ↔ s.phase ≠ .ready ∧ q = .notReady := by
  obtain ⟨k, gated, runs⟩ := exec_eq_whenReady notInit s
  rw [gated, whenReady_refused, or_iff_right fun h => runs q h.2]

/-! ## Faults and completion (60_exceptions.md R141, R142) -/

/-- The two commands R142 gives a fault: WRCHAR with an ordinary character and SEGQ, with a digit outside the
chain. -/
def DigitOutOfRange (s : State) (i : Instr) : Prop :=
  (∃ c d, i = .wrchar c d ∧ isSpecial c = false ∧ s.cfg.ndig ≤ d.toNat) ∨
    ∃ g d, i = .segq g d ∧ s.cfg.ndig ≤ d.toNat

theorem exec_of_digitOutOfRange {i : Instr} {s : State} (ready : s.phase = .ready)
    (outside : DigitOutOfRange s i) : exec i s = .fault .digitRange := by
  rcases outside with ⟨c, d, rfl, ordinary, outside⟩ | ⟨g, d, rfl, outside⟩
  · exact exec_wrchar_of_outside ready ordinary outside
  · exact exec_segq_of_outside ready outside g

/-- INIT answers with no fault, and the phase is tested before anything that can. -/
theorem exec_fault_gate {i : Instr} {s : State} {f : Fault} (h : exec i s = .fault f) :
    i ≠ .init ∧ s.phase = .ready := by
  have notInit : i ≠ .init := by
    rintro rfl
    obtain uninit | left := em (s.phase = .uninit)
    · cases (execInit_next.2 ⟨uninit, rfl⟩).symm.trans h
    · cases (execInit_refused.2 ⟨left, rfl⟩).symm.trans h
  obtain ⟨k, gated, -⟩ := exec_eq_whenReady notInit s
  exact ⟨notInit, (whenReady_fault.1 (gated.symm.trans h)).1⟩

/-- With the cursor inside the chain neither WRBYTE nor a stream leaves it, so the operand of WRCHAR and of
SEGQ is all that can be out of range. -/
theorem exec_completes {i : Instr} {s : State} (inside : s.cursor < s.cfg.ndig)
    (ready : s.phase = .ready) (notInit : i ≠ .init) (inRange : ¬ DigitOutOfRange s i) :
    ∃ t, exec i s = .next t := by
  have streamed (cs : List Byte) : ∃ t, exec (.wrstream cs) s = .next t := by
    obtain ⟨u, -, runs⟩ := exec_wrstream_of_ready ready (Nat.zero_lt_of_lt inside) cs
    exact ⟨_, runs⟩
  cases i with
  | init => exact absurd rfl notInit
  | clear => exact ⟨_, execClear_next.2 ⟨ready, rfl⟩⟩
  | flush => exact ⟨_, execFlush_next.2 ⟨ready, rfl⟩⟩
  | wrchar c d =>
    cases special : isSpecial c with
    | true => exact ⟨_, exec_wrchar_of_special ready special inside d⟩
    | false =>
      have digit : d.toNat < s.cfg.ndig :=
        Nat.lt_of_not_le fun outside => inRange (.inl ⟨c, d, rfl, special, outside⟩)
      exact ⟨_, exec_wrchar_of_ordinary ready special digit⟩
  | wrbyte c =>
    obtain ⟨u, written⟩ := put_completes c inside inside
    exact ⟨_, execWrbyte_next.2 ⟨ready, u, written, rfl⟩⟩
  | wrstream cs => exact streamed cs
  | shl n =>
    obtain accepted | large := Nat.lt_or_ge n.toNat s.cfg.ndig
    · exact exec_shl_of_accepted accepted ▸ streamed _
    · exact ⟨_, execShl_next.2 ⟨ready, .inr ⟨large, rfl⟩⟩⟩
  | shr n =>
    obtain accepted | large := Nat.lt_or_ge n.toNat s.cfg.ndig
    · exact exec_shr_of_accepted accepted ▸ streamed _
    · exact ⟨_, execShr_next.2 ⟨ready, .inr ⟨large, rfl⟩⟩⟩
  | defglyph c m =>
    cases definable : isDefinable c with
    | true => exact ⟨_, execDefglyph_next.2 ⟨ready, .inl ⟨definable, rfl⟩⟩⟩
    | false => exact ⟨_, execDefglyph_next.2 ⟨ready, .inr ⟨definable, rfl⟩⟩⟩
  | glyphq c => exact ⟨_, exec_glyphq_of_ready ready c⟩
  | segq g d =>
    have digit : d.toNat < s.cfg.ndig :=
      Nat.lt_of_not_le fun outside => inRange (.inr ⟨g, d, rfl, outside⟩)
    exact ⟨_, exec_segq_of_inside ready digit g⟩

/-- Where the cursor is inside the chain the faults are R142's and no others. -/
theorem exec_fault_iff {i : Instr} {s : State} {f : Fault} (inside : s.cursor < s.cfg.ndig) :
    exec i s = .fault f ↔ f = .digitRange ∧ s.phase = .ready ∧ DigitOutOfRange s i := by
  constructor
  · intro h
    obtain ⟨notInit, ready⟩ := exec_fault_gate h
    by_cases outside : DigitOutOfRange s i
    · cases (exec_of_digitOutOfRange ready outside).symm.trans h
      exact ⟨rfl, ready, outside⟩
    · obtain ⟨t, completes⟩ := exec_completes inside ready notInit outside
      cases completes.symm.trans h
  · rintro ⟨rfl, ready, outside⟩
    exact exec_of_digitOutOfRange ready outside

end Sys2Proof.Machine

open Sys2Proof Sys2Proof.Machine

/-- Settles O19: a command that is not one of the two completes, so the two are all that fault. -/
theorem onlyDigitRangeFaults : Obligations.OnlyDigitRangeFaults :=
  fun _ _ _ inv => exec_fault_iff inv.cursor

/-- Settles O20: INIT has its own gate, every other command has the gate of READY, and behind either gate
nothing is refused. -/
theorem refusalsAreByPhase : Obligations.RefusalsAreByPhase := by
  intro s i q
  by_cases isInit : i = .init
  · subst isInit
    exact execInit_refused.trans (by simp)
  · simp [exec_refused_of_ne_init isInit, isInit]

/-- Settles O21: the conditions on the operands shut out the two digit faults, and the invariants keep the
cursor inside the chain. -/
theorem readyCommandsComplete : Obligations.ReadyCommandsComplete := by
  intro s i inv ready notInit wrcharInside segqInside
  refine exec_completes inv.cursor ready notInit ?inRange
  rintro (⟨c, d, isWrchar, ordinary, outside⟩ | ⟨g, d, isSegq, outside⟩)
  · exact (wrcharInside c d isWrchar ordinary).not_ge outside
  · exact (segqInside g d isSegq).not_ge outside

end

section
/-! PROOFS. Runs (70_reset_and_hazards.md R174): what each command of a run does, the marks it keeps, and that it
ends or is stopped by a fault. -/

namespace Sys2Proof.Machine

/-! ## One command of a run -/

theorem bytesAfterCommand_of_length {bs : List Byte} {n : Nat} (h : commandLength bs = some n) :
    bytesAfterCommand bs = bs.drop n := by
  simp [bytesAfterCommand, h]

theorem bytesAfterCommand_of_no_length {bs : List Byte} (h : commandLength bs = none) :
    bytesAfterCommand bs = [] := by
  simp [bytesAfterCommand, h]

theorem advance_of_input {r : RunState} (noFault : r.fault = none) (left : r.state.input ≠ []) :
    r.advance = r.conclude (step r.state) (bytesAfterCommand r.state.input) := by
  obtain ⟨b, bs, presented⟩ := List.exists_cons_of_ne_nil left
  rw [advance_of_bytes noFault presented, presented]

/-- An advance does nothing, or shortens the list and takes some outcome into the run. -/
theorem advance_cases (r : RunState) :
    r.advance = r ∨ ∃ (ps : List Presentation) (o : Outcome) (left : List Byte),
      r.advance = { r with program := ps }.conclude o left := by
  obtain noFault | ⟨f, stopped⟩ := Option.eq_none_or_eq_some r.fault
  · by_cases left : r.state.input = []
    · cases program : r.program with
      | nil => exact .inl (advance_of_ended ((ended_iff r).2 ⟨program, left⟩))
      | cons p ps => exact .inr ⟨ps, _, _, advance_of_presentation noFault left program⟩
    · exact .inr ⟨r.program, _, _, advance_of_input noFault left⟩
  · exact .inl (advance_of_fault stopped)

/-! ## Several commands of a run -/

theorem run_add (j k : Nat) (r : RunState) : r.run (j + k) = (r.run j).run k := by
  induction j generalizing r with
  | zero => rw [Nat.zero_add]; rfl
  | succ j ih => rw [Nat.succ_add]; exact ih r.advance

theorem run_of_advance_eq_self {r : RunState} (still : r.advance = r) (k : Nat) : r.run k = r := by
  induction k with
  | zero => rfl
  | succ k ih => rw [RunState.run, still, ih]

theorem run_of_fault {r : RunState} {f : Fault} (stopped : r.fault = some f) (k : Nat) : r.run k = r :=
  run_of_advance_eq_self (advance_of_fault stopped) k

theorem run_of_ended {r : RunState} (ended : r.ended = true) (k : Nat) : r.run k = r :=
  run_of_advance_eq_self (advance_of_ended ended) k

/-! ## Marks (60_exceptions.md R142, R143) -/

theorem unmarked_iff (r : RunState) : r.unmarked = true ↔ r.fault = none ∧ r.refusals = [] := by
  simp [RunState.unmarked]

theorem unmarked_of_conclude {r : RunState} {o : Outcome} {left : List Byte}
    (h : (r.conclude o left).unmarked = true) : r.unmarked = true := by
  cases o with
  | next t => exact h
  | fault f => simp [unmarked_iff, RunState.conclude] at h
  | refused q => simp [unmarked_iff, RunState.conclude] at h

theorem unmarked_of_advance {r : RunState} (h : r.advance.unmarked = true) : r.unmarked = true := by
  rcases advance_cases r with still | ⟨ps, o, left, taken⟩
  · rwa [still] at h
  · rw [taken] at h
    exact unmarked_of_conclude (r := { r with program := ps }) h

theorem unmarked_of_run {r : RunState} {k : Nat} (h : (r.run k).unmarked = true) : r.unmarked = true := by
  induction k generalizing r with
  | zero => exact h
  | succ k ih => exact unmarked_of_advance (ih h)

/-! ## The end of a run (R174) -/

theorem ended_or_fault_or_advance_closer (r : RunState) :
    r.ended = true ∨ (∃ f, r.fault = some f) ∨ r.advance.remaining < r.remaining := by
  cases fault : r.fault with
  | some f => exact .inr (.inl ⟨f, rfl⟩)
  | none =>
    cases ended : r.ended with
    | true => exact .inl rfl
    | false => exact .inr (.inr (advance_remaining fault ended))

/-- While a run has neither ended nor been stopped each advance lowers `remaining`, so as many advances as it
counts suffice. -/
theorem run_ends_or_faults {k : Nat} {r : RunState} (enough : r.remaining ≤ k) :
    (r.run k).ended = true ∨ ∃ f, (r.run k).fault = some f := by
  induction k generalizing r with
  | zero =>
    rcases ended_or_fault_or_advance_closer r with ended | stopped | closer
    · exact .inl ended
    · exact .inr stopped
    · omega
  | succ k ih =>
    rcases ended_or_fault_or_advance_closer r with ended | ⟨f, stopped⟩ | closer
    · exact .inl ((run_of_ended ended (k + 1)).symm ▸ ended)
    · exact .inr ⟨f, (run_of_fault stopped (k + 1)).symm ▸ stopped⟩
    · exact ih (r := r.advance) (by omega)

theorem good_iff (r : RunState) : r.good = true ↔
    r.program = [] ∧ r.state.input = [] ∧ r.fault = none ∧ r.refusals = [] := by
  rw [RunState.good, Bool.and_eq_true, ended_iff, unmarked_iff, and_assoc]

end Sys2Proof.Machine

open Sys2Proof Sys2Proof.Machine

/-- Settles O59: one advance is one outcome taken into the run, and no outcome takes a mark away; each lowers the
count of bytes and items still to come, so the count is enough to end the run unless a fault stops it. -/
theorem runsKeepTheirMarks : Obligations.RunsKeepTheirMarks := by
  refine ⟨fun r f k stopped => run_of_fault stopped k, ?item, ?bytes,
    fun bs => ⟨fun n => bytesAfterCommand_of_length, bytesAfterCommand_of_no_length⟩,
    fun s t => step_next_input, fun s i bs => ⟨rfl, rfl, rfl, rfl⟩, ?marks,
    fun r k ended => run_of_ended ended k, fun r => run_ends_or_faults le_rfl, good_iff⟩
  case item =>
    intro r p ps noFault taken program
    rw [advance_of_presentation noFault taken program]
    exact ⟨fun t h => h ▸ rfl, fun f h => h ▸ rfl, fun q h => h ▸ rfl⟩
  case bytes =>
    intro r noFault left
    rw [advance_of_input noFault left]
    exact ⟨fun t h => h ▸ rfl, fun f h => h ▸ rfl, fun q h => h ▸ rfl⟩
  case marks =>
    intro r j k unmarked
    rw [run_add] at unmarked
    exact unmarked_of_run unmarked

end
